-- ==== Sys2Proof/Word.lean ====
section
/-!
DEFINITION. The value types of the hardware (00_scope.md R5, R6): bytes, 16-bit words, 12-bit
immediate addresses and register numbers. All values are unsigned.
-/

namespace Sys2Proof

/-- An 8-bit value: a V register, a timer, a memory byte, the immediate kk. -/
abbrev Byte := BitVec 8

/-- A 16-bit value: I, PC, a stack entry, an instruction word. -/
abbrev Word := BitVec 16

/-- The 12-bit immediate address nnn (30_encoding.md R91). -/
abbrev Addr12 := BitVec 12

/-- A register number 0..15, the fields x and y (10_state.md R20); also a key number (R30). -/
abbrev Reg := Fin 16

/-- VF, general register 15, which is also the flag register (10_state.md R21). -/
abbrev regF : Reg := 15

end Sys2Proof
end

