-- ==== Sys2Proof/Syntax.lean ====
section
/-!
DEFINITION. The instruction set: one constructor for each of the 34 rows of
spec/opcode_table.json (30_encoding.md R94), with the operands of its format (R92, R93).
-/

namespace Sys2Proof

/-- The 34 instructions. `x` and `y` are register numbers, `kk` the 8-bit immediate, `nnn` the
12-bit address, `n` the sprite height, a count that the encoding holds in four bits. -/
inductive Instr where
  /-- `CLS`, 00E0 (R211). -/
  | cls
  /-- `RET`, 00EE (R140). -/
  | ret
  /-- `JP nnn`, 1nnn (R141). -/
  | jp (nnn : Addr12)
  /-- `CALL nnn`, 2nnn (R142). -/
  | call (nnn : Addr12)
  /-- `SE Vx, kk`, 3xkk (R150). -/
  | seImm (x : Reg) (kk : Byte)
  /-- `SNE Vx, kk`, 4xkk (R151). -/
  | sneImm (x : Reg) (kk : Byte)
  /-- `SE Vx, Vy`, 5xy0 (R152). -/
  | seReg (x y : Reg)
  /-- `LD Vx, kk`, 6xkk (R160). -/
  | ldImm (x : Reg) (kk : Byte)
  /-- `ADD Vx, kk`, 7xkk (R161). -/
  | addImm (x : Reg) (kk : Byte)
  /-- `LD Vx, Vy`, 8xy0 (R171). -/
  | ldReg (x y : Reg)
  /-- `OR Vx, Vy`, 8xy1 (R172). -/
  | orReg (x y : Reg)
  /-- `AND Vx, Vy`, 8xy2 (R173). -/
  | andReg (x y : Reg)
  /-- `XOR Vx, Vy`, 8xy3 (R174). -/
  | xorReg (x y : Reg)
  /-- `ADD Vx, Vy`, 8xy4 (R175). -/
  | addReg (x y : Reg)
  /-- `SUB Vx, Vy`, 8xy5 (R176). -/
  | sub (x y : Reg)
  /-- `SHR Vx, Vy`, 8xy6 (R177). -/
  | shr (x y : Reg)
  /-- `SUBN Vx, Vy`, 8xy7 (R178). -/
  | subn (x y : Reg)
  /-- `SHL Vx, Vy`, 8xyE (R179). -/
  | shl (x y : Reg)
  /-- `SNE Vx, Vy`, 9xy0 (R153). -/
  | sneReg (x y : Reg)
  /-- `LD I, nnn`, Annn (R190). -/
  | ldI (nnn : Addr12)
  /-- `JP V0, nnn`, Bnnn (R143). -/
  | jpV0 (nnn : Addr12)
  /-- `RND Vx, kk`, Cxkk (R162). -/
  | rnd (x : Reg) (kk : Byte)
  /-- `DRW Vx, Vy, n`, Dxyn (R212). -/
  | drw (x y : Reg) (n : Nat)
  /-- `SKP Vx`, Ex9E (R230). -/
  | skp (x : Reg)
  /-- `SKNP Vx`, ExA1 (R231). -/
  | sknp (x : Reg)
  /-- `LD Vx, DT`, Fx07 (R240). -/
  | ldVxDt (x : Reg)
  /-- `LD Vx, K`, Fx0A (R232). -/
  | ldVxK (x : Reg)
  /-- `LD DT, Vx`, Fx15 (R241). -/
  | ldDtVx (x : Reg)
  /-- `LD ST, Vx`, Fx18 (R242). -/
  | ldStVx (x : Reg)
  /-- `ADD I, Vx`, Fx1E (R191). -/
  | addI (x : Reg)
  /-- `LD F, Vx`, Fx29 (R192). -/
  | ldF (x : Reg)
  /-- `LD B, Vx`, Fx33 (R193). -/
  | ldB (x : Reg)
  /-- `LD [I], Vx`, Fx55, the register dump (R194). -/
  | regDump (x : Reg)
  /-- `LD Vx, [I]`, Fx65, the register load (R195). -/
  | regLoad (x : Reg)
deriving DecidableEq, Repr

end Sys2Proof
end

