-- ==== Sys2Proof/Decode.lean ====
section
/-!
DEFINITION. The encoding (30_encoding.md): the fields of a word, the decoder (R98), total on every
word and on every list of bytes and refusing by name, the encoder written from the formats of R92,
the opcode table of R94, and the assembler spelling of R99. Bit patterns other than 00E0 and 1200
are general knowledge the spec supplies (G1, log 8); decoding is strict (D2, D3, log 8).
-/

namespace Sys2Proof

/-- `v[hi:lo]` of R5: the field of a word from bit `hi` down to bit `lo`, as a number. -/
def bits (w : Word) (hi lo : Nat) : Nat := w.toNat / 2 ^ lo % 2 ^ (hi + 1 - lo)

/-- The field op, opcode[15:12] (R91). -/
def fieldOp (w : Word) : Nat := bits w 15 12

/-- The field x, opcode[11:8] (R91). -/
def fieldX (w : Word) : Reg := Fin.ofNat 16 (bits w 11 8)

/-- The field y, opcode[7:4] (R91). -/
def fieldY (w : Word) : Reg := Fin.ofNat 16 (bits w 7 4)

/-- The field n, opcode[3:0] (R91). -/
def fieldN (w : Word) : Nat := bits w 3 0

/-- The field kk, opcode[7:0] (R91). -/
def fieldKk (w : Word) : Byte := BitVec.ofNat 8 (bits w 7 0)

/-- The field nnn, opcode[11:0] (R91). -/
def fieldNnn (w : Word) : Addr12 := BitVec.ofNat 12 (bits w 11 0)

/-- The instruction word of two bytes, the one at the lower address first: big-endian
(20_memory.md R65). -/
def wordOfBytes (b0 b1 : Byte) : Word := BitVec.ofNat 16 (b0.toNat * 256 + b1.toNat)

/-- The byte of a word at the lower address (R65). -/
def highByte (w : Word) : Byte := BitVec.ofNat 8 (bits w 15 8)

/-- The byte of a word at the higher address (R65). -/
def lowByte (w : Word) : Byte := BitVec.ofNat 8 (bits w 7 0)

/-- Why bytes are no instruction. -/
inductive DecodeError where
  /-- The word matches no row of R94 (R95): the machine's UnknownOpcode. -/
  | unknownOpcode (w : Word)
  /-- Fewer than two bytes were given; a fetch always gives two (R90). -/
  | truncated
deriving DecidableEq, Repr

/-- Family 8 of R98: the two-register operations, by their sub-opcode n. -/
def decodeAlu (w : Word) : Except DecodeError Instr :=
  match fieldN w with
  | 0x0 => .ok (.ldReg (fieldX w) (fieldY w))
  | 0x1 => .ok (.orReg (fieldX w) (fieldY w))
  | 0x2 => .ok (.andReg (fieldX w) (fieldY w))
  | 0x3 => .ok (.xorReg (fieldX w) (fieldY w))
  | 0x4 => .ok (.addReg (fieldX w) (fieldY w))
  | 0x5 => .ok (.sub (fieldX w) (fieldY w))
  | 0x6 => .ok (.shr (fieldX w) (fieldY w))
  | 0x7 => .ok (.subn (fieldX w) (fieldY w))
  | 0xE => .ok (.shl (fieldX w) (fieldY w))
  | _ => .error (.unknownOpcode w)

/-- Family E of R98: the key skips, by their low byte. -/
def decodeKey (w : Word) : Except DecodeError Instr :=
  match bits w 7 0 with
  | 0x9E => .ok (.skp (fieldX w))
  | 0xA1 => .ok (.sknp (fieldX w))
  | _ => .error (.unknownOpcode w)

/-- Family F of R98, by the low byte. -/
def decodeMisc (w : Word) : Except DecodeError Instr :=
  match bits w 7 0 with
  | 0x07 => .ok (.ldVxDt (fieldX w))
  | 0x0A => .ok (.ldVxK (fieldX w))
  | 0x15 => .ok (.ldDtVx (fieldX w))
  | 0x18 => .ok (.ldStVx (fieldX w))
  | 0x1E => .ok (.addI (fieldX w))
  | 0x29 => .ok (.ldF (fieldX w))
  | 0x33 => .ok (.ldB (fieldX w))
  | 0x55 => .ok (.regDump (fieldX w))
  | 0x65 => .ok (.regLoad (fieldX w))
  | _ => .error (.unknownOpcode w)

/-- Family 0 of R98: only the two words 00E0 and 00EE. -/
def decodeZero (w : Word) : Except DecodeError Instr :=
  if w = 0x00E0 then .ok .cls else if w = 0x00EE then .ok .ret else .error (.unknownOpcode w)

/-- The decoding procedure of R98, total on words. It reads no state. -/
def decode (w : Word) : Except DecodeError Instr :=
  match fieldOp w with
  | 0x0 => decodeZero w
  | 0x1 => .ok (.jp (fieldNnn w))
  | 0x2 => .ok (.call (fieldNnn w))
  | 0x3 => .ok (.seImm (fieldX w) (fieldKk w))
  | 0x4 => .ok (.sneImm (fieldX w) (fieldKk w))
  | 0x5 => if fieldN w = 0 then .ok (.seReg (fieldX w) (fieldY w)) else .error (.unknownOpcode w)
  | 0x6 => .ok (.ldImm (fieldX w) (fieldKk w))
  | 0x7 => .ok (.addImm (fieldX w) (fieldKk w))
  | 0x8 => decodeAlu w
  | 0x9 => if fieldN w = 0 then .ok (.sneReg (fieldX w) (fieldY w)) else .error (.unknownOpcode w)
  | 0xA => .ok (.ldI (fieldNnn w))
  | 0xB => .ok (.jpV0 (fieldNnn w))
  | 0xC => .ok (.rnd (fieldX w) (fieldKk w))
  | 0xD => .ok (.drw (fieldX w) (fieldY w) (fieldN w))
  | 0xE => decodeKey w
  | 0xF => decodeMisc w
  | _ => .error (.unknownOpcode w)

/-- Decode the first instruction of a byte stream and give the rest of the bytes; every
instruction is two bytes (R90, R97). -/
def decodeBytes : List Byte → Except DecodeError (Instr × List Byte)
  | b0 :: b1 :: rest =>
    match decode (wordOfBytes b0 b1) with
    | .ok i => .ok (i, rest)
    | .error e => .error e
  | _ => .error .truncated

/-- The instruction the decoder reads from a table word of `nbits` bits: the word is laid out as
its two bytes, the high byte at the lower address. -/
def decodeTableWord (nbits w : Nat) : Option Instr :=
  let word : Word := BitVec.ofNat 16 (w % 2 ^ nbits)
  match decodeBytes [highByte word, lowByte word] with
  | .ok (i, _) => some i
  | .error _ => none

/-! ## The encoder, by the formats of R92 -/

/-- Format ADDR. -/
def encAddr (op : Nat) (nnn : Addr12) : Word := BitVec.ofNat 16 (op * 4096 + nnn.toNat)

/-- Format REG_IMM. -/
def encRegImm (op : Nat) (x : Reg) (kk : Byte) : Word :=
  BitVec.ofNat 16 (op * 4096 + x.val * 256 + kk.toNat)

/-- Formats REG_REG, where `n` is the sub-opcode, and REG_REG_N, where it is the sprite height. -/
def encRegReg (op : Nat) (x y : Reg) (n : Nat) : Word :=
  BitVec.ofNat 16 (op * 4096 + x.val * 256 + y.val * 16 + n)

/-- Format REG_SUB. -/
def encRegSub (op : Nat) (x : Reg) (sub : Nat) : Word :=
  BitVec.ofNat 16 (op * 4096 + x.val * 256 + sub)

/-- The word of an instruction (R92, R94); it stands for the instruction when that is
well formed. -/
def encode : Instr → Word
  | .cls => 0x00E0
  | .ret => 0x00EE
  | .jp nnn => encAddr 0x1 nnn
  | .call nnn => encAddr 0x2 nnn
  | .seImm x kk => encRegImm 0x3 x kk
  | .sneImm x kk => encRegImm 0x4 x kk
  | .seReg x y => encRegReg 0x5 x y 0x0
  | .ldImm x kk => encRegImm 0x6 x kk
  | .addImm x kk => encRegImm 0x7 x kk
  | .ldReg x y => encRegReg 0x8 x y 0x0
  | .orReg x y => encRegReg 0x8 x y 0x1
  | .andReg x y => encRegReg 0x8 x y 0x2
  | .xorReg x y => encRegReg 0x8 x y 0x3
  | .addReg x y => encRegReg 0x8 x y 0x4
  | .sub x y => encRegReg 0x8 x y 0x5
  | .shr x y => encRegReg 0x8 x y 0x6
  | .subn x y => encRegReg 0x8 x y 0x7
  | .shl x y => encRegReg 0x8 x y 0xE
  | .sneReg x y => encRegReg 0x9 x y 0x0
  | .ldI nnn => encAddr 0xA nnn
  | .jpV0 nnn => encAddr 0xB nnn
  | .rnd x kk => encRegImm 0xC x kk
  | .drw x y n => encRegReg 0xD x y n
  | .skp x => encRegSub 0xE x 0x9E
  | .sknp x => encRegSub 0xE x 0xA1
  | .ldVxDt x => encRegSub 0xF x 0x07
  | .ldVxK x => encRegSub 0xF x 0x0A
  | .ldDtVx x => encRegSub 0xF x 0x15
  | .ldStVx x => encRegSub 0xF x 0x18
  | .addI x => encRegSub 0xF x 0x1E
  | .ldF x => encRegSub 0xF x 0x29
  | .ldB x => encRegSub 0xF x 0x33
  | .regDump x => encRegSub 0xF x 0x55
  | .regLoad x => encRegSub 0xF x 0x65

/-- The two bytes of an instruction in memory order (R65). -/
def encodeBytes (i : Instr) : List Byte := [highByte (encode i), lowByte (encode i)]

/-! ## The opcode table of R94, as data -/

/-- One row of R94: a word W is the row's instruction when `W & mask = pattern`. -/
structure OpcodeRow where
  mnemonic : String
  mask : Word
  pattern : Word
deriving DecidableEq, Repr

/-- Whether a word matches a row. -/
def OpcodeRow.matches (r : OpcodeRow) (w : Word) : Bool := w &&& r.mask == r.pattern

/-- The 34 rows of R94, in the order of spec/opcode_table.json and with its mnemonics. -/
def opcodeTable : List OpcodeRow :=
  [⟨"CLS", 0xFFFF, 0x00E0⟩,
   ⟨"RET", 0xFFFF, 0x00EE⟩,
   ⟨"JP_nnn", 0xF000, 0x1000⟩,
   ⟨"CALL_nnn", 0xF000, 0x2000⟩,
   ⟨"SE_Vx__kk", 0xF000, 0x3000⟩,
   ⟨"SNE_Vx__kk", 0xF000, 0x4000⟩,
   ⟨"SE_Vx__Vy", 0xF00F, 0x5000⟩,
   ⟨"LD_Vx__kk", 0xF000, 0x6000⟩,
   ⟨"ADD_Vx__kk", 0xF000, 0x7000⟩,
   ⟨"LD_Vx__Vy", 0xF00F, 0x8000⟩,
   ⟨"OR_Vx__Vy", 0xF00F, 0x8001⟩,
   ⟨"AND_Vx__Vy", 0xF00F, 0x8002⟩] ++
  [⟨"XOR_Vx__Vy", 0xF00F, 0x8003⟩,
   ⟨"ADD_Vx__Vy", 0xF00F, 0x8004⟩,
   ⟨"SUB_Vx__Vy", 0xF00F, 0x8005⟩,
   ⟨"SHR_Vx____Vy", 0xF00F, 0x8006⟩,
   ⟨"SUBN_Vx__Vy", 0xF00F, 0x8007⟩,
   ⟨"SHL_Vx____Vy", 0xF00F, 0x800E⟩,
   ⟨"SNE_Vx__Vy", 0xF00F, 0x9000⟩,
   ⟨"LD_I__nnn", 0xF000, 0xA000⟩,
   ⟨"JP_V0__nnn", 0xF000, 0xB000⟩,
   ⟨"RND_Vx__kk", 0xF000, 0xC000⟩,
   ⟨"DRW_Vx__Vy__n", 0xF000, 0xD000⟩,
   ⟨"SKP_Vx", 0xF0FF, 0xE09E⟩] ++
  [⟨"SKNP_Vx", 0xF0FF, 0xE0A1⟩,
   ⟨"LD_Vx__DT", 0xF0FF, 0xF007⟩,
   ⟨"LD_Vx__K", 0xF0FF, 0xF00A⟩,
   ⟨"LD_DT__Vx", 0xF0FF, 0xF015⟩,
   ⟨"LD_ST__Vx", 0xF0FF, 0xF018⟩,
   ⟨"ADD_I__Vx", 0xF0FF, 0xF01E⟩,
   ⟨"LD_F__Vx", 0xF0FF, 0xF029⟩,
   ⟨"LD_B__Vx", 0xF0FF, 0xF033⟩,
   ⟨"LD__I___Vx", 0xF0FF, 0xF055⟩,
   ⟨"LD_Vx___I", 0xF0FF, 0xF065⟩]

/-- The mnemonic of an instruction's row, as spec/opcode_table.json spells it. -/
def Instr.mnemonic : Instr → String
  | .cls => "CLS"
  | .ret => "RET"
  | .jp _ => "JP_nnn"
  | .call _ => "CALL_nnn"
  | .seImm _ _ => "SE_Vx__kk"
  | .sneImm _ _ => "SNE_Vx__kk"
  | .seReg _ _ => "SE_Vx__Vy"
  | .ldImm _ _ => "LD_Vx__kk"
  | .addImm _ _ => "ADD_Vx__kk"
  | .ldReg _ _ => "LD_Vx__Vy"
  | .orReg _ _ => "OR_Vx__Vy"
  | .andReg _ _ => "AND_Vx__Vy"
  | .xorReg _ _ => "XOR_Vx__Vy"
  | .addReg _ _ => "ADD_Vx__Vy"
  | .sub _ _ => "SUB_Vx__Vy"
  | .shr _ _ => "SHR_Vx____Vy"
  | .subn _ _ => "SUBN_Vx__Vy"
  | .shl _ _ => "SHL_Vx____Vy"
  | .sneReg _ _ => "SNE_Vx__Vy"
  | .ldI _ => "LD_I__nnn"
  | .jpV0 _ => "JP_V0__nnn"
  | .rnd _ _ => "RND_Vx__kk"
  | .drw _ _ _ => "DRW_Vx__Vy__n"
  | .skp _ => "SKP_Vx"
  | .sknp _ => "SKNP_Vx"
  | .ldVxDt _ => "LD_Vx__DT"
  | .ldVxK _ => "LD_Vx__K"
  | .ldDtVx _ => "LD_DT__Vx"
  | .ldStVx _ => "LD_ST__Vx"
  | .addI _ => "ADD_I__Vx"
  | .ldF _ => "LD_F__Vx"
  | .ldB _ => "LD_B__Vx"
  | .regDump _ => "LD__I___Vx"
  | .regLoad _ => "LD_Vx___I"

/-! ## The assembler spelling of R99: a notation, not behaviour -/

/-- One hexadecimal digit. -/
def hexDigit (n : Nat) : Char := if n < 10 then Char.ofNat (48 + n) else Char.ofNat (55 + n)

/-- The low `k` hexadecimal digits of a number, most significant first. -/
def hexDigits : Nat → Nat → List Char
  | 0, _ => []
  | k + 1, n => hexDigits k (n / 16) ++ [hexDigit (n % 16)]

/-- `Vx` (R99). -/
def asmReg (x : Reg) : List Char := 'V' :: hexDigits 1 x.val

/-- A hexadecimal numeral of `k` digits (R99). -/
def asmHex (k n : Nat) : List Char := '0' :: 'x' :: hexDigits k n

/-- A line of a mnemonic and its operands, destination first, separated by commas (R99). -/
def asmLine (name : String) : List (List Char) → List Char
  | [] => name.toList
  | o :: os => name.toList ++ ' ' :: o ++ (os.map (fun p => ',' :: ' ' :: p)).flatten

/-- The assembler text of an instruction (R99; D23, log 32). -/
def Instr.asm : Instr → List Char
  | .cls => asmLine "CLS" []
  | .ret => asmLine "RET" []
  | .jp nnn => asmLine "JP" [asmHex 3 nnn.toNat]
  | .call nnn => asmLine "CALL" [asmHex 3 nnn.toNat]
  | .seImm x kk => asmLine "SE" [asmReg x, asmHex 2 kk.toNat]
  | .sneImm x kk => asmLine "SNE" [asmReg x, asmHex 2 kk.toNat]
  | .seReg x y => asmLine "SE" [asmReg x, asmReg y]
  | .ldImm x kk => asmLine "LD" [asmReg x, asmHex 2 kk.toNat]
  | .addImm x kk => asmLine "ADD" [asmReg x, asmHex 2 kk.toNat]
  | .ldReg x y => asmLine "LD" [asmReg x, asmReg y]
  | .orReg x y => asmLine "OR" [asmReg x, asmReg y]
  | .andReg x y => asmLine "AND" [asmReg x, asmReg y]
  | .xorReg x y => asmLine "XOR" [asmReg x, asmReg y]
  | .addReg x y => asmLine "ADD" [asmReg x, asmReg y]
  | .sub x y => asmLine "SUB" [asmReg x, asmReg y]
  | .shr x y => asmLine "SHR" [asmReg x, asmReg y]
  | .subn x y => asmLine "SUBN" [asmReg x, asmReg y]
  | .shl x y => asmLine "SHL" [asmReg x, asmReg y]
  | .sneReg x y => asmLine "SNE" [asmReg x, asmReg y]
  | .ldI nnn => asmLine "LD" [['I'], asmHex 3 nnn.toNat]
  | .jpV0 nnn => asmLine "JP" [['V', '0'], asmHex 3 nnn.toNat]
  | .rnd x kk => asmLine "RND" [asmReg x, asmHex 2 kk.toNat]
  | .drw x y n => asmLine "DRW" [asmReg x, asmReg y, asmHex 1 n]
  | .skp x => asmLine "SKP" [asmReg x]
  | .sknp x => asmLine "SKNP" [asmReg x]
  | .ldVxDt x => asmLine "LD" [asmReg x, ['D', 'T']]
  | .ldVxK x => asmLine "LD" [asmReg x, ['K']]
  | .ldDtVx x => asmLine "LD" [['D', 'T'], asmReg x]
  | .ldStVx x => asmLine "LD" [['S', 'T'], asmReg x]
  | .addI x => asmLine "ADD" [['I'], asmReg x]
  | .ldF x => asmLine "LD" [['F'], asmReg x]
  | .ldB x => asmLine "LD" [['B'], asmReg x]
  | .regDump x => asmLine "LD" [['[', 'I', ']'], asmReg x]
  | .regLoad x => asmLine "LD" [asmReg x, ['[', 'I', ']']]

end Sys2Proof
end

