-- ==== Sys2Proof/Config.lean ====
section
/-!
DEFINITION. The parameters of the hardware (00_scope.md R4): the fixed sizes, FONT and FONT_BASE,
and, without a value, what the spec leaves open: the two quirk bits and the random draws.
-/

namespace Sys2Proof

/-- The largest address of MEM, MEM_SIZE - 1 (R4, 20_memory.md R60). -/
abbrev Config.memLast : Nat := 0xFFF

/-- PROG_BASE: where ROM byte 0 goes and PC starts (R4). -/
abbrev Config.progBase : Nat := 0x200

/-- ROM_MAX: the largest ROM that LOAD accepts, 4096 - 512 bytes (R4). -/
abbrev Config.romMax : Nat := 3584

/-- FONT_BASE: the address of glyph 0 (R4; the spec's decision D12, log 7). -/
abbrev Config.fontBase : Nat := 0x000

/-- FONT: the 80 glyph bytes, sixteen glyphs of five rows (10_state.md R35; the bytes are general
knowledge the spec supplies, D13 and G2, log 7). -/
def Config.font : List Byte :=
  [0xF0, 0x90, 0x90, 0x90, 0xF0, 0x20, 0x60, 0x20, 0x20, 0x70,
   0xF0, 0x10, 0xF0, 0x80, 0xF0, 0xF0, 0x10, 0xF0, 0x10, 0xF0] ++
  [0x90, 0x90, 0xF0, 0x10, 0x10, 0xF0, 0x80, 0xF0, 0x10, 0xF0,
   0xF0, 0x80, 0xF0, 0x90, 0xF0, 0xF0, 0x10, 0x20, 0x40, 0x40] ++
  [0xF0, 0x90, 0xF0, 0x90, 0xF0, 0xF0, 0x90, 0xF0, 0x10, 0xF0,
   0xF0, 0x90, 0xF0, 0x90, 0x90, 0xE0, 0x90, 0xE0, 0x90, 0xE0] ++
  [0xF0, 0x80, 0x80, 0x80, 0xF0, 0xE0, 0x90, 0x90, 0x90, 0xE0,
   0xF0, 0x80, 0xF0, 0x80, 0xF0, 0xF0, 0x80, 0xF0, 0x80, 0x80]

/-- SHIFT_SRC_VY: OPEN, no default (R4, R33; D4, log 6). -/
opaque Config.shiftSrcVy : Bool

/-- INDEX_INC: OPEN, no default (R4, R33; D5, log 6). -/
opaque Config.indexInc : Bool

/-- The free value of the n-th executed RND (43_immediate.md R162; D18, log 5): nothing is known
of it. -/
opaque Config.rnd : Nat → Byte

end Sys2Proof
end

