-- ==== Sys2Proof/Machine/State.lean ====
section
/-!
DEFINITION. The state of the machine (10_state.md), as plain data, with its power-on value
(70_reset_and_hazards.md R300, R303), the error kinds (60_exceptions.md R250), the host's events
(R265), and the two stop types of the interface.
-/

namespace Sys2Proof.Machine

/-- MEM: the bytes that differ from their power-on value, by strictly rising address; what an
unlisted address reads as is `Memory.background` of Machine/Ops.lean (log 7). -/
abbrev Memory := List Host.Cell

/-- FB: 32 rows of 64 pixels; pixel (x, y) is bit x of row y (10_state.md R29, log 31). -/
abbrev Display := Vector (BitVec 64) 32

/-- The run mode (10_state.md R31). -/
inductive Mode where
  | running
  | awaitingKey (target : Reg)
deriving DecidableEq, Repr

/-- The fatal error kinds, the ones FAULT can hold (10_state.md R32). -/
inductive FatalKind where
  | addressOutOfRange
  | stackOverflow
  | stackUnderflow
deriving DecidableEq, Repr

/-- The five error kinds (60_exceptions.md R250). -/
inductive ErrorKind where
  | romTooLarge
  | addressOutOfRange
  | stackOverflow
  | stackUnderflow
  | unknownOpcode
deriving DecidableEq, Repr

/-- What a host operation returns: Ok or an error kind (R265). -/
inductive Reply where
  | ok
  | error (kind : ErrorKind)
deriving DecidableEq, Repr

/-- CFG, the two quirk bits (10_state.md R33). -/
structure Quirks where
  shiftSrcVy : Bool
  indexInc : Bool
deriving DecidableEq, Repr

/-- The host's events (60_exceptions.md R265). The key number of SET_KEY is four bits wide
(R262; D29, log 27). -/
inductive HostEvent where
  | load (rom : List Byte)
  | reset
  | cycle
  | tick
  | setKey (k : Reg) (pressed : Bool)
deriving DecidableEq, Repr

/-- The state. The last three fields are the model's own (log 5, 2, 1). -/
structure State where
  /-- V[0] .. V[15] (R20, R21). -/
  v : Vector Byte 16
  /-- I (R22). -/
  i : Word
  /-- PC (R23). -/
  pc : Word
  /-- SP, the number of stack entries in use, 0..16 (R25). -/
  sp : Fin 17
  /-- STACK[0] .. STACK[15] (R24). -/
  stack : Vector Word 16
  /-- DT (R26). -/
  dt : Byte
  /-- ST (R27). -/
  st : Byte
  /-- MEM (R28). -/
  mem : Memory
  /-- FB (R29). -/
  fb : Display
  /-- KEY (R30); true is pressed. -/
  key : Vector Bool 16
  /-- MODE (R31). -/
  mode : Mode
  /-- FAULT (R32). -/
  fault : Option FatalKind
  /-- CFG (R33): no event changes it. -/
  cfg : Quirks
  /-- ROMIMG (R34). -/
  romimg : List Byte
  /-- How many RND draws have been made: the index of the next free value (log 5). -/
  draws : Nat
  /-- What the event served by the latest step returned to the host; none where that event
  returns nothing (R265, log 2). -/
  reply : Option Reply
  /-- The events the host is going to issue, oldest first; an empty list stands for a host that
  issues CYCLE (R9, log 1). -/
  pending : List HostEvent
deriving DecidableEq, Repr

/-- A stop with a fault. There is none: every error of this hardware has a next state that the
spec describes (40_cycle.md R121, R124, R126, R127; log 3), so the type has no constructor. -/
inductive Fault where
deriving DecidableEq, Repr

/-- A stop for want of a meaning. -/
inductive Refusal where
  /-- Raised by exec's arm of an instruction that has no meaning yet (none in this model). Safe. -/
  | notModelled (mnemonic : String)
deriving DecidableEq, Repr

/-- The state after power-on: INIT of the empty ROM, all keys released, ROMIMG empty (R40, R300,
R303). CFG has the open parameters, of which nothing is known (R33). -/
def State.reset : State where
  v := Vector.replicate 16 0
  i := 0
  pc := 0x200
  sp := 0
  stack := Vector.replicate 16 0
  dt := 0
  st := 0
  mem := []
  fb := Vector.replicate 32 0
  key := Vector.replicate 16 false
  mode := .running
  fault := none
  cfg := { shiftSrcVy := Config.shiftSrcVy, indexInc := Config.indexInc }
  romimg := []
  draws := 0
  reply := none
  pending := []

end Sys2Proof.Machine
end

