-- ==== Sys2Proof/Machine/Ops.lean ====
section
/-!
DEFINITION. The named operations over memory, registers, stack, display and errors that the
meanings share.
-/

namespace Sys2Proof.Machine

/-- What a meaning or a step answers. -/
abbrev Answer := Host.Outcome State Fault Refusal

/-! ## Memory (20_memory.md) -/

/-- The byte of an address after power-on, and so of an unlisted address: FONT at FONT_BASE, 0
elsewhere (R28, R303; log 7). -/
def Memory.background (a : Nat) : Byte :=
  if Config.fontBase ≤ a then Config.font.getD (a - Config.fontBase) 0 else 0

/-- MemRead of R62 at an address in range; it changes nothing. -/
def Memory.read : Memory → Nat → Byte
  | [], a => Memory.background a
  | (k, b) :: m, a => if k = a then b else Memory.read m a

/-- Put a byte in place, dropping the entry when it equals the unlisted value. -/
def Memory.put : Memory → Nat → Byte → Memory
  | [], a, b => if b = Memory.background a then [] else [(a, b)]
  | (k, c) :: m, a, b =>
    if k < a then (k, c) :: Memory.put m a b
    else
      let rest := if k = a then m else (k, c) :: m
      if b = Memory.background a then rest else (a, b) :: rest

/-- MemWrite of R63: a write above 0xFFF writes nothing (its error is raised by `rangeOk` before
any write). -/
def Memory.write (m : Memory) (a : Nat) (b : Byte) : Memory :=
  if a ≤ Config.memLast then Memory.put m a b else m

/-- The canonical form from address `lo` on: addresses rising and in MEM, no entry equal to the
unlisted value. -/
def Memory.wfFrom : Nat → Memory → Bool
  | _, [] => true
  | lo, (k, b) :: m =>
    decide (lo ≤ k) && decide (k ≤ Config.memLast) && decide (b ≠ Memory.background k) &&
      Memory.wfFrom (k + 1) m

/-- The canonical form of memory. -/
def Memory.wf (m : Memory) : Bool := Memory.wfFrom 0 m

/-- The address check of R62, R63, R68, R196 for the `n` bytes from `a`, with addresses as
naturals: none of them is above 0xFFF. No bytes are always in range. -/
def rangeOk (a n : Nat) : Bool := n == 0 || decide (a + (n - 1) ≤ Config.memLast)

/-- The `n` bytes from `a`, ascending. -/
def Memory.readBlock (m : Memory) : Nat → Nat → List Byte
  | _, 0 => []
  | a, n + 1 => m.read a :: m.readBlock (a + 1) n

/-- Store bytes from `a` on, ascending. -/
def Memory.writeBlock (m : Memory) : Nat → List Byte → Memory
  | _, [] => m
  | a, b :: bs => (m.write a b).writeBlock (a + 1) bs

/-- Memory as INIT leaves it: FONT and zeroes with the bytes of a ROM from `a` on (R303). -/
def Memory.image : Nat → List Byte → Memory
  | _, [] => []
  | a, b :: bs =>
    if b = Memory.background a then Memory.image (a + 1) bs
    else (a, b) :: Memory.image (a + 1) bs

/-! ## Registers -/

/-- `V[x]` (10_state.md R20). -/
def State.reg (s : State) (x : Reg) : Byte := s.v[x.val]

/-- `V[x] <- b`; no register is hard-wired (R20). -/
def State.setReg (s : State) (x : Reg) (b : Byte) : State := { s with v := s.v.set x.val b }

/-- Put bytes into consecutive registers from number `r` on, ascending. -/
def fillRegs (v : Vector Byte 16) : Nat → List Byte → Vector Byte 16
  | _, [] => v
  | r, b :: bs => fillRegs (v.setIfInBounds r b) (r + 1) bs

/-- `V[0], V[1], ... <- bs` (45_index_memory.md R195). -/
def State.loadRegs (s : State) (bs : List Byte) : State := { s with v := fillRegs s.v 0 bs }

/-- `I <- w` (R22). -/
def State.setI (s : State) (w : Word) : State := { s with i := w }

/-- `PC <- w`, never range-checked here (R23; D8, log 14). -/
def State.setPc (s : State) (w : Word) : State := { s with pc := w }

/-- `DT <- b` (R26). -/
def State.setDt (s : State) (b : Byte) : State := { s with dt := b }

/-- `ST <- b` (R27). -/
def State.setSt (s : State) (b : Byte) : State := { s with st := b }

/-- `MODE <- m` (R31). -/
def State.setMode (s : State) (m : Mode) : State := { s with mode := m }

/-- Replace MEM. -/
def State.setMem (s : State) (m : Memory) : State := { s with mem := m }

/-- Replace FB. -/
def State.setFb (s : State) (d : Display) : State := { s with fb := d }

/-- Skip: PC advances by an additional 2 when the condition holds (42_skips.md R154). -/
def State.skipIf (s : State) (c : Bool) : State := if c then s.setPc (s.pc + 2) else s

/-- The free value of this RND, and the state in which the next RND takes the next one
(43_immediate.md R162; log 5). -/
def State.draw (s : State) : Byte × State := (Config.rnd s.draws, { s with draws := s.draws + 1 })

/-! ## The call stack (10_state.md R24, R25) -/

/-- STACK[SP] <- w; SP <- SP + 1. None when all sixteen entries are in use. -/
def State.push (s : State) (w : Word) : Option State :=
  if h : s.sp.val < 16 then
    some { s with stack := s.stack.set s.sp.val w, sp := ⟨s.sp.val + 1, by omega⟩ }
  else none

/-- SP <- SP - 1, and the entry STACK[SP]. None when no entry is in use. -/
def State.pop (s : State) : Option (Word × State) :=
  if h : 0 < s.sp.val then
    some (s.stack[s.sp.val - 1]'(by have := s.sp.isLt; omega),
      { s with sp := ⟨s.sp.val - 1, by have := s.sp.isLt; omega⟩ })
  else none

/-! ## The display (46_display.md R210) -/

/-- FB[y][x] (R29); false for coordinates outside the 64 by 32 grid. -/
def Display.pixel (d : Display) (x y : Nat) : Bool :=
  if h : y < 32 then d[y].getLsbD x else false

/-- Invert pixel (x, y). -/
def Display.invert (d : Display) (x y : Nat) : Display :=
  if h : y < 32 then d.set y (d[y] ^^^ BitVec.twoPow 64 x) else d

/-- The display with every pixel off (R211, R303). -/
def Display.clear : Display := Vector.replicate 32 0

/-! ## Errors (60_exceptions.md R258) and what clears them (R259) -/

/-- A fatal kind as an error kind (R250). -/
def FatalKind.kind : FatalKind → ErrorKind
  | .addressOutOfRange => .addressOutOfRange
  | .stackOverflow => .stackOverflow
  | .stackUnderflow => .stackUnderflow

/-- The code of a reply: Ok is 0 and the errors are numbered as in R250 (D22, log 28). -/
def Reply.code : Reply → Nat
  | .ok => 0
  | .error .romTooLarge => 1
  | .error .addressOutOfRange => 2
  | .error .stackOverflow => 3
  | .error .stackUnderflow => 4
  | .error .unknownOpcode => 5

/-- The reply of the event being served. -/
def State.answer (s : State) (r : Reply) : State := { s with reply := some r }

/-- Taking a fatal error (40_cycle.md R126, 60_exceptions.md R258): FAULT is latched and the kind
goes to the host. Nothing is saved, no mode changes, PC stays as the fetch left it. -/
def State.raise (s : State) (k : FatalKind) : State :=
  { s with fault := some k, reply := some (.error k.kind) }

/-- INIT(r) of 70_reset_and_hazards.md R303, the only way out of a latched error (R259): every
element of state but KEY, CFG and ROMIMG takes its initial value. The model's own fields stay. -/
def State.init (s : State) (rom : List Byte) : State :=
  { s with
    mem := Memory.image Config.progBase rom
    v := Vector.replicate 16 0
    i := 0
    pc := BitVec.ofNat 16 Config.progBase
    sp := 0
    stack := Vector.replicate 16 0
    dt := 0
    st := 0
    fb := Display.clear
    mode := .running
    fault := none }

end Sys2Proof.Machine
end

