-- ==== Sys2Proof/Machine/Flags.lean ====
section
/-!
DEFINITION. The values that VF receives as a flag (10_state.md R21), and writing a result and then
the flag (00_scope.md R8, 44_alu.md R170).
-/

namespace Sys2Proof.Machine

/-- A flag value: 0 or 1, the other seven bits zero (R21). -/
def flagByte (c : Bool) : Byte := if c then 1 else 0

/-- Carry out of an 8-bit addition (R175). -/
def carryOut (a b : Byte) : Bool := decide (256 ≤ a.toNat + b.toNat)

/-- No borrow in a - b: the minuend is at least the subtrahend (R176, R178). -/
def noBorrow (a b : Byte) : Bool := decide (b.toNat ≤ a.toNat)

/-- The bit a right shift by one moves out (R177). -/
def shiftedOutRight (a : Byte) : Bool := a.getLsbD 0

/-- The bit a left shift by one moves out (R179). -/
def shiftedOutLeft (a : Byte) : Bool := a.getLsbD 7

/-- Write the result to V[x], then the flag to VF, so that with x = F the flag stands
(R170; D6, log 9). -/
def State.setRegFlag (s : State) (x : Reg) (result : Byte) (flag : Bool) : State :=
  (s.setReg x result).setReg regF (flagByte flag)

end Sys2Proof.Machine
end

