-- ==== Sys2Proof/Machine/Operands.lean ====
section
/-!
DEFINITION. The operand forms of the instructions (30_encoding.md R93): what the shifts read, the
key a register names, the key a wait reports, the font address, the decimal digits, the bytes of a
register dump, the sprite's place.
-/

namespace Sys2Proof.Machine

/-- nnn zero-extended to 16 bits (R93). -/
def zext12 (nnn : Addr12) : Word := BitVec.ofNat 16 nnn.toNat

/-- A register value zero-extended to 16 bits (R6 `zext_16`). -/
def zext8 (b : Byte) : Word := BitVec.ofNat 16 b.toNat

/-- The source of SHR and SHL: V[y] if SHIFT_SRC_VY else V[x] (44_alu.md R177, R179). -/
def State.shiftSource (s : State) (x y : Reg) : Byte :=
  if s.cfg.shiftSrcVy then s.reg y else s.reg x

/-- The key a register value names: its low nibble (47_keypad.md R233; D17, log 17). -/
def keyNumber (b : Byte) : Reg := Fin.ofNat 16 (b.toNat % 16)

/-- KEY[k] (10_state.md R30). -/
def State.keyDown (s : State) (k : Reg) : Bool := s.key[k.val]

/-- key_select: the smallest pressed key, none when no key is pressed (R234; D16, log 16). -/
def keySelect (key : Vector Bool 16) : Option Reg :=
  (List.finRange 16).find? (fun k => key[k.val])

/-- The address of the glyph of a value's low nibble (45_index_memory.md R192). -/
def fontAddress (b : Byte) : Word := BitVec.ofNat 16 (Config.fontBase + 5 * (b.toNat % 16))

/-- The three decimal digits of a byte, hundreds first (R193). -/
def bcdDigits (b : Byte) : List Byte :=
  [BitVec.ofNat 8 (b.toNat / 100), BitVec.ofNat 8 (b.toNat / 10 % 10), BitVec.ofNat 8 (b.toNat % 10)]

/-- V[0] .. V[x], the bytes of a register dump (R194). -/
def State.dumpBytes (s : State) (x : Reg) : List Byte := s.v.toList.take (x.val + 1)

/-- I + n if INDEX_INC else I: what the register dump and load leave in I (R194, R195; log 11). -/
def State.advanceIndex (s : State) (n : Nat) : State :=
  if s.cfg.indexInc then s.setI (BitVec.ofNat 16 (s.i.toNat + n)) else s

/-- Sprite column c of a row byte: bit 7 is the leftmost (46_display.md R213; log 18). -/
def spriteBit (b : Byte) (c : Nat) : Bool := b.getLsbD (7 - c)

end Sys2Proof.Machine
end

