-- ==== Sys2Proof/Machine/Alu.lean ====
section
/-!
DEFINITION. Two-register arithmetic and logic (44_alu.md). Operands are read first, then V[x] is
written, then VF where the instruction has a flag (R170).
-/

namespace Sys2Proof.Machine

/-- `LD Vx, Vy` (R171). -/
def execLdReg (x y : Reg) (s : State) : Answer := .next (s.setReg x (s.reg y))

/-- `OR Vx, Vy` (R172); VF is not touched (R170; D7, log 10). -/
def execOrReg (x y : Reg) (s : State) : Answer := .next (s.setReg x (s.reg x ||| s.reg y))

/-- `AND Vx, Vy` (R173). -/
def execAndReg (x y : Reg) (s : State) : Answer := .next (s.setReg x (s.reg x &&& s.reg y))

/-- `XOR Vx, Vy` (R174). -/
def execXorReg (x y : Reg) (s : State) : Answer := .next (s.setReg x (s.reg x ^^^ s.reg y))

/-- `ADD Vx, Vy` (R175). -/
def execAddReg (x y : Reg) (s : State) : Answer :=
  .next (s.setRegFlag x (s.reg x + s.reg y) (carryOut (s.reg x) (s.reg y)))

/-- `SUB Vx, Vy` (R176). -/
def execSub (x y : Reg) (s : State) : Answer :=
  .next (s.setRegFlag x (s.reg x - s.reg y) (noBorrow (s.reg x) (s.reg y)))

/-- `SHR Vx, Vy` (R177): logical, by one bit. -/
def execShr (x y : Reg) (s : State) : Answer :=
  let a := s.shiftSource x y
  .next (s.setRegFlag x (BitVec.ofNat 8 (a.toNat / 2)) (shiftedOutRight a))

/-- `SUBN Vx, Vy` (R178). -/
def execSubn (x y : Reg) (s : State) : Answer :=
  .next (s.setRegFlag x (s.reg y - s.reg x) (noBorrow (s.reg y) (s.reg x)))

/-- `SHL Vx, Vy` (R179): by one bit. -/
def execShl (x y : Reg) (s : State) : Answer :=
  let a := s.shiftSource x y
  .next (s.setRegFlag x (BitVec.ofNat 8 (a.toNat * 2)) (shiftedOutLeft a))

end Sys2Proof.Machine
end

