-- ==== Sys2Proof/Machine/Control.lean ====
section
/-!
DEFINITION. Control transfer (41_control_transfer.md). In every meaning PC already holds a + 2,
where a is the address the instruction was fetched from (40_cycle.md R123, R125).
-/

namespace Sys2Proof.Machine

/-- `RET` (R140): PC <- the popped entry, or StackUnderflow with an empty stack. -/
def execRet (s : State) : Answer :=
  match s.pop with
  | some (w, t) => .next (t.setPc w)
  | none => .next (s.raise .stackUnderflow)

/-- `JP nnn` (R141). -/
def execJp (nnn : Addr12) (s : State) : Answer := .next (s.setPc (zext12 nnn))

/-- `CALL nnn` (R142): push the advanced PC and jump, or StackOverflow with a full stack. -/
def execCall (nnn : Addr12) (s : State) : Answer :=
  match s.push s.pc with
  | some t => .next (t.setPc (zext12 nnn))
  | none => .next (s.raise .stackOverflow)

/-- `JP V0, nnn` (R143): the sum is not reduced to 12 bits and not checked. -/
def execJpV0 (nnn : Addr12) (s : State) : Answer := .next (s.setPc (zext12 nnn + zext8 (s.reg 0)))

end Sys2Proof.Machine
end

