-- ==== Sys2Proof/Machine/Display.lean ====
section
/-!
DEFINITION. The display instructions (46_display.md): CLS, and DRW with its loop over sprite rows
and columns, written as R212's pseudocode has it.
-/

namespace Sys2Proof.Machine

/-- One sprite bit of DRW at its wrapped pixel: a 1 bit records a collision when the pixel is on,
and inverts it (R212). -/
def drawBit (on : Bool) (px py : Nat) (d : Display × Bool) : Display × Bool :=
  if on then (d.1.invert px py, d.2 || d.1.pixel px py) else d

/-- One sprite row: its eight columns, left to right, at display row `py` (R212). -/
def drawRow (x0 py : Nat) (b : Byte) (d : Display × Bool) : Display × Bool :=
  (List.range 8).foldl (fun d c => drawBit (spriteBit b c) ((x0 + c) % 64) py d) d

/-- The sprite rows from display row `y0` on, top to bottom, wrapping (R212; log 18). -/
def drawRows (x0 : Nat) : Nat → List Byte → Display × Bool → Display × Bool
  | _, [], d => d
  | y0, b :: bs, d => drawRows x0 (y0 + 1) bs (drawRow x0 (y0 % 32) b d)

/-- `CLS` (R211). -/
def execCls (s : State) : Answer := .next (s.setFb Display.clear)

/-- `DRW Vx, Vy, n` (R212). The coordinates are read before VF is written; with n = 0 no byte is
read and VF is 0. -/
def execDrw (x y : Reg) (n : Nat) (s : State) : Answer :=
  if rangeOk s.i.toNat n then
    let d := drawRows (s.reg x).toNat (s.reg y).toNat (s.mem.readBlock s.i.toNat n) (s.fb, false)
    .next ((s.setFb d.1).setReg regF (flagByte d.2))
  else .next (s.raise .addressOutOfRange)

end Sys2Proof.Machine
end

