-- ==== Sys2Proof/Machine/Immediate.lean ====
section
/-!
DEFINITION. Immediate operations on a register (43_immediate.md).
-/

namespace Sys2Proof.Machine

/-- `LD Vx, kk` (R160). -/
def execLdImm (x : Reg) (kk : Byte) (s : State) : Answer := .next (s.setReg x kk)

/-- `ADD Vx, kk` (R161): modulo 256, no flag. -/
def execAddImm (x : Reg) (kk : Byte) (s : State) : Answer := .next (s.setReg x (s.reg x + kk))

/-- `RND Vx, kk` (R162): a free byte under the mask (log 5). -/
def execRnd (x : Reg) (kk : Byte) (s : State) : Answer :=
  let (r, t) := s.draw
  .next (t.setReg x (r &&& kk))

end Sys2Proof.Machine
end

