-- ==== Sys2Proof/Machine/Index.lean ====
section
/-!
DEFINITION. The index register and memory transfer (45_index_memory.md). A memory instruction
checks its whole address range before its first access (R196; D10, log 12).
-/

namespace Sys2Proof.Machine

/-- `LD I, nnn` (R190). -/
def execLdI (nnn : Addr12) (s : State) : Answer := .next (s.setI (zext12 nnn))

/-- `ADD I, Vx` (R191): modulo 65536, no flag, no range check. -/
def execAddI (x : Reg) (s : State) : Answer := .next (s.setI (s.i + zext8 (s.reg x)))

/-- `LD F, Vx` (R192). -/
def execLdF (x : Reg) (s : State) : Answer := .next (s.setI (fontAddress (s.reg x)))

/-- `LD B, Vx` (R193). -/
def execLdB (x : Reg) (s : State) : Answer :=
  if rangeOk s.i.toNat 3 then
    .next (s.setMem (s.mem.writeBlock s.i.toNat (bcdDigits (s.reg x))))
  else .next (s.raise .addressOutOfRange)

/-- `LD [I], Vx` (R194), the register dump. -/
def execRegDump (x : Reg) (s : State) : Answer :=
  if rangeOk s.i.toNat (x.val + 1) then
    .next ((s.setMem (s.mem.writeBlock s.i.toNat (s.dumpBytes x))).advanceIndex (x.val + 1))
  else .next (s.raise .addressOutOfRange)

/-- `LD Vx, [I]` (R195), the register load. -/
def execRegLoad (x : Reg) (s : State) : Answer :=
  if rangeOk s.i.toNat (x.val + 1) then
    .next ((s.loadRegs (s.mem.readBlock s.i.toNat (x.val + 1))).advanceIndex (x.val + 1))
  else .next (s.raise .addressOutOfRange)

end Sys2Proof.Machine
end

