-- ==== Sys2Proof/Machine/Keypad.lean ====
section
/-!
DEFINITION. The keypad instructions (47_keypad.md).
-/

namespace Sys2Proof.Machine

/-- `SKP Vx` (R230). -/
def execSkp (x : Reg) (s : State) : Answer := .next (s.skipIf (s.keyDown (keyNumber (s.reg x))))

/-- `SKNP Vx` (R231). -/
def execSknp (x : Reg) (s : State) : Answer := .next (s.skipIf (!s.keyDown (keyNumber (s.reg x))))

/-- `LD Vx, K` (R232): store the pressed key's number at once, or start the wait. -/
def execLdVxK (x : Reg) (s : State) : Answer :=
  match keySelect s.key with
  | some k => .next (s.setReg x (BitVec.ofNat 8 k.val))
  | none => .next (s.setMode (.awaitingKey x))

/-- The continuation of `LD Vt, K` in a later CYCLE (40_cycle.md R122, R232): complete the wait
when a key is pressed, else change nothing. -/
def keyWait (t : Reg) (s : State) : State :=
  match keySelect s.key with
  | some k => (s.setReg t (BitVec.ofNat 8 k.val)).setMode .running
  | none => s

end Sys2Proof.Machine
end

