-- ==== Sys2Proof/Machine/Skip.lean ====
section
/-!
DEFINITION. The skips on registers (42_skips.md).
-/

namespace Sys2Proof.Machine

/-- `SE Vx, kk` (R150). -/
def execSeImm (x : Reg) (kk : Byte) (s : State) : Answer := .next (s.skipIf (s.reg x == kk))

/-- `SNE Vx, kk` (R151). -/
def execSneImm (x : Reg) (kk : Byte) (s : State) : Answer := .next (s.skipIf (s.reg x != kk))

/-- `SE Vx, Vy` (R152). -/
def execSeReg (x y : Reg) (s : State) : Answer := .next (s.skipIf (s.reg x == s.reg y))

/-- `SNE Vx, Vy` (R153). -/
def execSneReg (x y : Reg) (s : State) : Answer := .next (s.skipIf (s.reg x != s.reg y))

end Sys2Proof.Machine
end

