-- ==== Sys2Proof/Machine/Timer.lean ====
section
/-!
DEFINITION. The timer instructions (48_timers.md).
-/

namespace Sys2Proof.Machine

/-- `LD Vx, DT` (R240). -/
def execLdVxDt (x : Reg) (s : State) : Answer := .next (s.setReg x s.dt)

/-- `LD DT, Vx` (R241). -/
def execLdDtVx (x : Reg) (s : State) : Answer := .next (s.setDt (s.reg x))

/-- `LD ST, Vx` (R242). -/
def execLdStVx (x : Reg) (s : State) : Answer := .next (s.setSt (s.reg x))

end Sys2Proof.Machine
end

