-- ==== Sys2Proof/Machine/Cycle.lean ====
section
/-!
DEFINITION. The CYCLE event (40_cycle.md): latch, key wait, fetch, decode, execute, in this order.
-/

namespace Sys2Proof.Machine

/-- Phase 2, FETCH (R123): the big-endian word at PC and the state with PC advanced by 2, or none
when PC > 0xFFE. -/
def State.fetch (s : State) : Option (Word × State) :=
  if rangeOk s.pc.toNat 2 then
    some (wordOfBytes (s.mem.read s.pc.toNat) (s.mem.read (s.pc.toNat + 1)), s.setPc (s.pc + 2))
  else none

/-- Phases 3 and 4, DECODE and EXECUTE (R124, R125), in the state the fetch left: an unknown word
ends the event with nothing changed and nothing latched (log 13); otherwise the event returns Ok
unless the instruction raises. -/
def decodeExecute (w : Word) (s : State) : Answer :=
  match decode w with
  | .ok i => exec i (s.answer .ok)
  | .error _ => .next (s.answer (.error .unknownOpcode))

/-- One CYCLE event (R120). -/
def cycle (s : State) : Answer :=
  match s.fault with
  | some k => .next (s.answer (.error k.kind))
  | none =>
    match s.mode with
    | .awaitingKey t => .next ((keyWait t s).answer .ok)
    | .running =>
      match s.fetch with
      | some (w, t) => decodeExecute w t
      | none => .next (s.raise .addressOutOfRange)

end Sys2Proof.Machine
end

