-- ==== Sys2Proof/Machine/Events.lean ====
section
/-!
DEFINITION. The host's events other than CYCLE, and the outputs (60_exceptions.md R261 to R265,
70_reset_and_hazards.md R301, R302). In the model the host's coming events stand in `pending`
(log 1).
-/

namespace Sys2Proof.Machine

/-- A timer one TICK later: it stops at 0 (R261). -/
def timerTick (b : Byte) : Byte := if b = 0 then 0 else b - 1

/-- TICK (R261): in every MODE and whatever FAULT holds. -/
def tick (s : State) : State := (s.setDt (timerTick s.dt)).setSt (timerTick s.st)

/-- SET_KEY(k, b) (R262). -/
def setKey (k : Reg) (pressed : Bool) (s : State) : State :=
  { s with key := s.key.set k.val pressed }

/-- LOAD(r) (R301): the size is checked first, and a failing LOAD changes nothing. -/
def load (rom : List Byte) (s : State) : State :=
  if Config.romMax < rom.length then s.answer (.error .romTooLarge)
  else { s.init rom with romimg := rom }.answer .ok

/-- RESET (R302). -/
def resetEvent (s : State) : State := s.init s.romimg

/-- The event returns nothing to the host (R265). -/
def State.noAnswer (s : State) : State := { s with reply := none }

/-- One host event (R265). -/
def runEvent (e : HostEvent) (s : State) : Answer :=
  match e with
  | .load rom => .next (load rom s)
  | .reset => .next (resetEvent s.noAnswer)
  | .cycle => cycle s
  | .tick => .next (tick s.noAnswer)
  | .setKey k pressed => .next (setKey k pressed s.noAnswer)

/-- Serve the host's next event: the oldest of `pending`, or a CYCLE where none is listed
(log 1). -/
def serve (s : State) : Answer :=
  match s.pending with
  | [] => cycle s
  | e :: rest => runEvent e { s with pending := rest }

/-- The output `display_snapshot`: the 32 rows of 64 pixels, top row and left column first
(R263). -/
def displaySnapshot (s : State) : List (List Bool) :=
  (List.range 32).map (fun y => (List.range 64).map (fun x => s.fb.pixel x y))

/-- The output `sound_active` (R264). -/
def soundActive (s : State) : Bool := decide (0 < s.st.toNat)

/-- Place an instruction word where the next step fetches: the host waits, nothing is latched, PC
is in memory, and the word's two bytes stand at PC (log 24). -/
def placeWord (s : State) (w : Word) : State :=
  let pc : Word := if rangeOk s.pc.toNat 2 then s.pc else BitVec.ofNat 16 Config.progBase
  { s with
    pending := []
    fault := none
    mode := .running
    pc := pc
    mem := s.mem.writeBlock pc.toNat [highByte w, lowByte w] }

end Sys2Proof.Machine
end

