-- ==== Sys2Proof/Machine/Step.lean ====
section
/-! DEFINITION. One step of the machine: the host's next event (00_scope.md R9, log 1). -/

namespace Sys2Proof.Machine

/-- One step: the oldest pending host event, or a CYCLE where none is listed. -/
def step (s : State) : Host.Outcome State Fault Refusal := serve s

/-- The state in which the very next step fetches and runs the table word `w` of `nbits` bits
(log 24). -/
def State.withFetchWord (s : State) (nbits w : Nat) : State :=
  placeWord s (BitVec.ofNat 16 (w % 2 ^ nbits))

end Sys2Proof.Machine
end

