-- ==== Sys2Proof/Safety.lean ====
section
/-!
DEFINITION. What claims about runs use: the reachable-state invariant (10_state.md R23, R34, R41),
what a step's reply must be for a run to be error-free, and the end-of-run condition
(70_reset_and_hazards.md R309).
-/

namespace Sys2Proof.Machine

/-- The invariant of reachable states: memory is in canonical form, PC and the stack entries stay
in the ranges of R23 and R41, ROMIMG has at most ROM_MAX bytes (R34). -/
structure State.Inv (s : State) : Prop where
  mem_wf : s.mem.wf = true
  pc_le : s.pc.toNat ≤ 0x10FE
  stack_le : ∀ k : Fin 16, s.stack[k.val].toNat ≤ 0x1000
  romimg_le : s.romimg.length ≤ 3584

/-- The latest event returned no error. -/
def State.noError (s : State) : Prop := ∀ k, s.reply ≠ some (.error k)

/-- The end-of-run condition of R309: nothing is latched, no wait is on, and the word at PC is a
jump to PC itself. -/
def State.atSelfJump (s : State) : Prop :=
  s.fault = none ∧ s.mode = .running ∧
    ∃ nnn : Addr12, s.pc.toNat = nnn.toNat ∧
      (s.fetch.map fun p => decode p.1) = some (.ok (.jp nnn))

end Sys2Proof.Machine
end

