-- ==== Sys2Proof/Certificates/Slice0/Obligations.lean ====
section
/-!
DEFINITION. The statements for the provers, from the numbered rules of spec/. In a statement about
`exec`, PC is already past the instruction's word (40_cycle.md R125); `StepRunsTheDecodedInstruction`
links `exec` to `step`. Every statement holds for both values of each quirk bit and for every value
of the free draws. The decision of the spec (D<n>) or the log entry that a statement rests on is
named in its docstring.
-/

open Sys2Proof Sys2Proof.Machine

/-! ## Frames -/

/-- Every field but V is unchanged, and so are the registers outside `d` and every byte of
memory. -/
def Sys2Proof.Claims.OnlyRegs (d : Reg → Prop) (s t : State) : Prop :=
  t = { s with v := t.v } ∧ (∀ r, ¬ d r → t.reg r = s.reg r) ∧ ∀ a, t.mem.read a = s.mem.read a

/-- Every field but PC is unchanged, and so are every register and every byte of memory. -/
def Sys2Proof.Claims.OnlyPc (s t : State) : Prop :=
  t = { s with pc := t.pc } ∧ (∀ r, t.reg r = s.reg r) ∧ ∀ a, t.mem.read a = s.mem.read a

/-- Every field but I is unchanged, and so are every register and every byte of memory. -/
def Sys2Proof.Claims.OnlyIndex (s t : State) : Prop :=
  t = { s with i := t.i } ∧ (∀ r, t.reg r = s.reg r) ∧ ∀ a, t.mem.read a = s.mem.read a

/-- A fatal error was taken and nothing else happened: FAULT is latched and the kind returned. -/
def Sys2Proof.Claims.Raised (k : FatalKind) (s t : State) : Prop :=
  t = { s with fault := some k, reply := some (.error k.kind) }

/-- The next step from `t` fetches from outside memory: it latches AddressOutOfRange and changes
nothing else (40_cycle.md R123). -/
def Sys2Proof.Claims.NextFetchRaises (t : State) : Prop :=
  ∃ u, step t = .next u ∧ Sys2Proof.Claims.Raised .addressOutOfRange t u

/-- Pixel (px, py) lies under a 1 bit of the sprite that DRW Vx, Vy, n draws from `s`. -/
def Sys2Proof.Claims.Covered (s : State) (x y : Reg) (n px py : Nat) : Prop :=
  ∃ r c, r < n ∧ c < 8 ∧ (s.mem.read (s.i.toNat + r)).getLsbD (7 - c) = true ∧
    px = ((s.reg x).toNat + c) % 64 ∧ py = ((s.reg y).toNat + r) % 32

/-- The memory instructions. -/
def Sys2Proof.Claims.usesMemory : Instr → Bool
  | .drw _ _ _ | .ldB _ | .regDump _ | .regLoad _ => true
  | _ => false

/-- The instructions that name register `r` as a destination: V[x] as an ordinary destination, VF as
the flag, V[0] .. V[x] of a register load (10_state.md R20, R21). -/
def Sys2Proof.Claims.writesReg (r : Reg) : Instr → Prop
  | .ldImm x _ | .addImm x _ | .rnd x _ | .ldReg x _ | .orReg x _ | .andReg x _ | .xorReg x _
  | .ldVxDt x | .ldVxK x => r = x
  | .addReg x _ | .sub x _ | .shr x _ | .subn x _ | .shl x _ => r = x ∨ r = 15
  | .drw _ _ _ => r = 15
  | .regLoad x => r ≤ x
  | _ => False

/-- The control transfers and the skips, the only writers of PC besides the fetch, LOAD and RESET
(41_control_transfer.md R144 d). -/
def Sys2Proof.Claims.writesPc : Instr → Prop
  | .jp _ | .call _ | .ret | .jpV0 _ | .seImm _ _ | .sneImm _ _ | .seReg _ _ | .sneReg _ _ | .skp _
  | .sknp _ => True
  | _ => False

/-- The word a CYCLE at `s` fetches, where PC is in memory (20_memory.md R65). -/
def Sys2Proof.Claims.wordAt (s : State) (a : Nat) : Word :=
  BitVec.ofNat 16 ((s.mem.read a).toNat * 256 + (s.mem.read (a + 1)).toNat)

/-- The host issues a CYCLE next, nothing is latched and no key wait is on. -/
def Sys2Proof.Claims.Ready (s : State) : Prop :=
  s.pending = [] ∧ s.fault = none ∧ s.mode = .running

open Sys2Proof.Claims

/-! ## Encoding (30_encoding.md) -/

/-- Decode of encode is the identity on well-formed instructions: no bit of an encoding is dropped
(R92, R98; that it is the right bit is not said here). -/
def Obligations.DecodeOfEncodeIsTheInstruction : Prop :=
  ∀ i : Instr, i.WellFormed → decode (encode i) = .ok i

/-- Every word that decodes is the encoding of its instruction, which is well formed: each word has
one meaning (R94, R98). -/
def Obligations.EncodeOfDecodeIsTheWord : Prop :=
  ∀ (w : Word) (i : Instr), decode w = .ok i → i.WellFormed ∧ encode i = w

/-- R94 (its bit patterns: G1, log 8): a word decodes to an instruction whose row it matches, a word
that matches no row is refused by name (D2, D3, log 8), and no word matches two rows. -/
def Obligations.DecodingFollowsTheOpcodeTable : Prop :=
  ∀ w : Word,
    (∀ i, decode w = .ok i →
      ∃ row ∈ opcodeTable, row.mnemonic = i.mnemonic ∧ w &&& row.mask = row.pattern) ∧
    ((∀ row ∈ opcodeTable, w &&& row.mask ≠ row.pattern) ↔
      decode w = .error (.unknownOpcode w)) ∧
    (∀ row ∈ opcodeTable, ∀ row' ∈ opcodeTable,
      w &&& row.mask = row.pattern → w &&& row'.mask = row'.pattern → row = row')

/-- R95's list of the unknown words, family by family (D2, D3, log 8). -/
def Obligations.UnknownWordsAreTheListedOnes : Prop :=
  ∀ op x y n : Nat, op < 16 → x < 16 → y < 16 → n < 16 →
    let w : Word := BitVec.ofNat 16 (op * 4096 + x * 256 + y * 16 + n)
    (decode w = .error (.unknownOpcode w) ↔
      (op = 0 ∧ ¬(x = 0 ∧ y = 0xE ∧ (n = 0 ∨ n = 0xE))) ∨
      (op = 5 ∧ n ≠ 0) ∨
      (op = 8 ∧ n ∈ [0x8, 0x9, 0xA, 0xB, 0xC, 0xD, 0xF]) ∨
      (op = 9 ∧ n ≠ 0) ∨
      (op = 0xE ∧ y * 16 + n ∉ [0x9E, 0xA1]) ∨
      (op = 0xF ∧ y * 16 + n ∉ [0x07, 0x0A, 0x15, 0x18, 0x1E, 0x29, 0x33, 0x55, 0x65]))

/-- Words written out in 95_test_vectors.md decode as they say there (bit patterns and strictness:
G1, D2, D3, log 8): 1200 of E11 (R94 row 3), the other known words of 2.1, the unknown ones of 2.2.
-/
def Obligations.WrittenOutWordsDecode : Prop :=
  decode 0x00E0 = .ok .cls ∧ decode 0x1200 = .ok (.jp 0x200) ∧
  decode 0x5AB0 = .ok (.seReg 10 11) ∧ decode 0x6A7F = .ok (.ldImm 10 0x7F) ∧
  decode 0x8AB7 = .ok (.subn 10 11) ∧ decode 0xDAB5 = .ok (.drw 10 11 5) ∧
  decode 0xEA9E = .ok (.skp 10) ∧ decode 0xFA15 = .ok (.ldDtVx 10) ∧
  decode 0xFA65 = .ok (.regLoad 10) ∧ decode 0x0000 = .error (.unknownOpcode 0x0000) ∧
  decode 0x5121 = .error (.unknownOpcode 0x5121)

/-! ## The CYCLE event (40_cycle.md) -/

/-- R123, R125: when the word at PC decodes to i, a step advances PC by 2 and is exec of i. Before
exec the model notes the reply Ok, which an instruction that raises replaces (log 2). -/
def Obligations.StepRunsTheDecodedInstruction : Prop :=
  ∀ (s : State) (i : Instr), Ready s → s.pc.toNat ≤ 0xFFE →
    decode (wordAt s s.pc.toNat) = .ok i →
    step s = exec i { s with pc := s.pc + 2, reply := some .ok }

/-- The model's own convention (log 1): a step serves the oldest pending host event, whichever it
is, and with none pending it does what it does with one CYCLE pending. -/
def Obligations.StepServesTheOldestHostEvent : Prop :=
  ∀ s : State,
    (s.pending = [] → step s = step { s with pending := [.cycle] }) ∧
    (∀ (e : HostEvent) (rest : List HostEvent), s.pending = e :: rest →
      step s = runEvent e { s with pending := rest }) ∧
    runEvent .cycle s = cycle s

/-- R121 (D9, log 4): while an error is latched every CYCLE, however many, changes nothing and
returns it. -/
def Obligations.LatchedErrorMakesCyclesInert : Prop :=
  ∀ (n : Nat) (s : State) (k : FatalKind), s.pending = [] → s.fault = some k →
    Host.Core.run Sys2Proof.core (n + 1) s =
      .next { s with reply := some (.error k.kind) }

/-- R122 (D15, D16, log 15, log 16): in a key wait a CYCLE stores the lowest pressed key's number
and ends the wait, or changes nothing when no key is pressed; it fetches nothing. -/
def Obligations.KeyWaitCyclePollsTheKeys : Prop :=
  ∀ (s : State) (x : Reg), s.pending = [] → s.fault = none → s.mode = .awaitingKey x →
    (∀ k : Reg, s.keyDown k = true → (∀ j, j < k → s.keyDown j = false) →
      ∃ t, step s = .next t ∧ (t.reg x).toNat = k.val ∧ (∀ r, r ≠ x → t.reg r = s.reg r) ∧
        t = { s with v := t.v, mode := .running, reply := some .ok }) ∧
    ((∀ k, s.keyDown k = false) → step s = .next { s with reply := some .ok })

/-- R123: a fetch at PC above 0xFFE latches AddressOutOfRange and leaves PC and everything else (the
check at the fetch D8, log 14, the latch D9, log 4, nothing else written D10, log 12). -/
def Obligations.FetchOutsideMemoryIsLatched : Prop :=
  ∀ s : State, Ready s → 0xFFE < s.pc.toNat →
    ∃ t, step s = .next t ∧ Raised .addressOutOfRange s t

/-- R124 (D11, log 13): an unknown word advances PC by 2, returns UnknownOpcode and changes nothing
else; nothing is latched. -/
def Obligations.UnknownWordOnlyAdvancesPc : Prop :=
  ∀ (s : State) (e : DecodeError), Ready s → s.pc.toNat ≤ 0xFFE →
    decode (wordAt s s.pc.toNat) = .error e →
    step s = .next { s with pc := s.pc + 2, reply := some (.error .unknownOpcode) }

/-- The model's own convention (log 3): every step answers a next state, since the spec gives every
error its state. -/
def Obligations.EveryStepAnswersANextState : Prop :=
  ∀ s : State, ∃ t, step s = .next t

/-- R126, R127 (precise D10, log 12, latched D9, log 4; full and empty stack D24, log 21): a CYCLE
that executes an instruction either completes with Ok and no latched error, or is one of the listed
raises, with PC advanced, FAULT latched and nothing else changed. -/
def Obligations.InstructionErrorsArePreciseAndTyped : Prop :=
  ∀ (s t : State) (i : Instr), Ready s → s.pc.toNat ≤ 0xFFE →
    decode (wordAt s s.pc.toNat) = .ok i → step s = .next t →
    (t.reply = some .ok ∧ t.fault = none) ∨
    (usesMemory i = true ∧ Raised .addressOutOfRange { s with pc := s.pc + 2 } t) ∨
    ((∃ nnn, i = .call nnn) ∧ s.sp = 16 ∧ Raised .stackOverflow { s with pc := s.pc + 2 } t) ∨
    (i = .ret ∧ s.sp = 0 ∧ Raised .stackUnderflow { s with pc := s.pc + 2 } t)

/-- R128: PC after a completed instruction, for every instruction; `s.pc` is a + 2, where a is the
address the instruction was fetched from. SKP and SKNP take the key from the low nibble (D17, log
17), JP V0 does not wrap at 12 bits (D8, log 14), and the places of the stack entries are D24 (log
21). -/
def Obligations.PcAfterEachCompletedInstruction : Prop :=
  ∀ (s t : State) (i : Instr), s.fault = none → exec i s = .next t → t.fault = none →
    match i with
    | .jp nnn => t.pc.toNat = nnn.toNat
    | .call nnn => t.pc.toNat = nnn.toNat ∧ t.stack[s.sp.val]? = some s.pc
    | .ret => 0 < s.sp.val ∧ s.stack[s.sp.val - 1]? = some t.pc
    | .jpV0 nnn => t.pc.toNat = nnn.toNat + (s.reg 0).toNat
    | .seImm x kk => t.pc = if s.reg x = kk then s.pc + 2 else s.pc
    | .sneImm x kk => t.pc = if s.reg x ≠ kk then s.pc + 2 else s.pc
    | .seReg x y => t.pc = if s.reg x = s.reg y then s.pc + 2 else s.pc
    | .sneReg x y => t.pc = if s.reg x ≠ s.reg y then s.pc + 2 else s.pc
    | .skp x => t.pc = if s.keyDown (keyNumber (s.reg x)) then s.pc + 2 else s.pc
    | .sknp x => t.pc = if s.keyDown (keyNumber (s.reg x)) then s.pc else s.pc + 2
    | _ => t.pc = s.pc

/-! ## Control transfer (41_control_transfer.md) -/

/-- R140: RET pops the return address into PC; entries keep their values (the stack's representation
D24, log 21). With an empty stack it raises StackUnderflow before any write (the latch is D9, D10,
log 4, log 12). -/
def Obligations.RetPopsTheReturnAddress : Prop :=
  ∀ s : State, decode 0x00EE = .ok .ret ∧
    (∀ k : Fin 16, s.sp.val = k.val + 1 →
      ∃ t, exec .ret s = .next t ∧ t.pc = s.stack[k.val] ∧ t.sp.val = k.val ∧
        t = { s with pc := t.pc, sp := t.sp } ∧ ∀ a, t.mem.read a = s.mem.read a) ∧
    (s.sp = 0 → ∃ t, exec .ret s = .next t ∧ Raised .stackUnderflow s t)

/-- R141: JP nnn leaves PC = nnn and no other state changed. With nnn = 0xFFF the next fetch raises,
latched and with nothing else changed (D8, D9, D10, log 14, log 4, log 12). -/
def Obligations.JumpSetsOnlyPc : Prop :=
  ∀ (s : State) (nnn : Addr12),
    decode (BitVec.ofNat 16 (0x1000 + nnn.toNat)) = .ok (.jp nnn) ∧
    ∃ t, exec (.jp nnn) s = .next t ∧ t.pc.toNat = nnn.toNat ∧ OnlyPc s t ∧
      (Ready s → nnn = 0xFFF → NextFetchRaises t)

/-- R142: CALL nnn pushes the advanced PC and jumps; the other entries keep their values (the
stack's representation D24, log 21). With sixteen entries in use it raises StackOverflow before any
write (the latch is D9, D10, log 4, log 12). -/
def Obligations.CallPushesTheReturnAddress : Prop :=
  ∀ (s : State) (nnn : Addr12),
    decode (BitVec.ofNat 16 (0x2000 + nnn.toNat)) = .ok (.call nnn) ∧
    (∀ k : Fin 16, s.sp.val = k.val →
      ∃ t, exec (.call nnn) s = .next t ∧ t.pc.toNat = nnn.toNat ∧ t.stack[k.val] = s.pc ∧
        t.sp.val = k.val + 1 ∧ (∀ j : Fin 16, j ≠ k → t.stack[j.val] = s.stack[j.val]) ∧
        t = { s with pc := t.pc, sp := t.sp, stack := t.stack } ∧
        ∀ a, t.mem.read a = s.mem.read a) ∧
    (s.sp = 16 → ∃ t, exec (.call nnn) s = .next t ∧ Raised .stackOverflow s t)

/-- R143: JP V0, nnn leaves PC = nnn + V[0] and no other state changed. That the sum is not reduced
to 12 bits and not checked at the jump, but raises at the next fetch when above 0xFFE, is D8 (log
14); that the fetch's error is latched is D9 (log 4) and that it is precise D10 (log 12). -/
def Obligations.IndexedJumpAddsV0 : Prop :=
  ∀ (s : State) (nnn : Addr12),
    decode (BitVec.ofNat 16 (0xB000 + nnn.toNat)) = .ok (.jpV0 nnn) ∧
    ∃ t, exec (.jpV0 nnn) s = .next t ∧ t.pc.toNat = nnn.toNat + (s.reg 0).toNat ∧
      OnlyPc s t ∧ (Ready s → 0xFFE < nnn.toNat + (s.reg 0).toNat → NextFetchRaises t)

/-- A CALL executed by a step, whose target holds RET, and the step after it: PC is after the CALL
and the stack depth is as before (41_control_transfer.md R142, the source's property E2). -/
def Obligations.CallThenReturnComesBack : Prop :=
  ∀ (s : State) (nnn : Addr12), Ready s → s.pc.toNat ≤ 0xFFE → s.sp.val < 16 →
    decode (wordAt s s.pc.toNat) = .ok (.call nnn) → nnn.toNat ≤ 0xFFE →
    wordAt s nnn.toNat = 0x00EE →
    ∃ t u, step s = .next t ∧ step t = .next u ∧ u.pc = s.pc + 2 ∧ u.sp = s.sp ∧
      u.reply = some .ok

/-! ## Skips (42_skips.md) -/

/-- R150, R151: SE Vx, kk and SNE Vx, kk compare a register with the immediate and write only
PC. -/
def Obligations.ImmediateSkipsCompareBytes : Prop :=
  ∀ (s : State) (x : Reg) (kk : Byte),
    decode (BitVec.ofNat 16 (0x3000 + x.val * 256 + kk.toNat)) = .ok (.seImm x kk) ∧
    decode (BitVec.ofNat 16 (0x4000 + x.val * 256 + kk.toNat)) = .ok (.sneImm x kk) ∧
    (∃ t, exec (.seImm x kk) s = .next t ∧
      t.pc = (if s.reg x = kk then s.pc + 2 else s.pc) ∧ OnlyPc s t) ∧
    (∃ t, exec (.sneImm x kk) s = .next t ∧
      t.pc = (if s.reg x ≠ kk then s.pc + 2 else s.pc) ∧ OnlyPc s t)

/-- R152, R153: SE Vx, Vy and SNE Vx, Vy compare two registers and write only PC. The words 5xyn and
9xyn with n != 0 are unknown by the strict decoding (D3, log 8). -/
def Obligations.RegisterSkipsCompareRegisters : Prop :=
  ∀ (s : State) (x y : Reg),
    decode (BitVec.ofNat 16 (0x5000 + x.val * 256 + y.val * 16)) = .ok (.seReg x y) ∧
    decode (BitVec.ofNat 16 (0x9000 + x.val * 256 + y.val * 16)) = .ok (.sneReg x y) ∧
    (∀ n, 0 < n → n < 16 → ∀ w : Word,
      w = BitVec.ofNat 16 (0x5000 + x.val * 256 + y.val * 16 + n) ∨
        w = BitVec.ofNat 16 (0x9000 + x.val * 256 + y.val * 16 + n) →
      decode w = .error (.unknownOpcode w)) ∧
    (∃ t, exec (.seReg x y) s = .next t ∧
      t.pc = (if s.reg x = s.reg y then s.pc + 2 else s.pc) ∧ OnlyPc s t) ∧
    (∃ t, exec (.sneReg x y) s = .next t ∧
      t.pc = (if s.reg x ≠ s.reg y then s.pc + 2 else s.pc) ∧ OnlyPc s t)

/-- R154: a skip taken by the instruction at a leaves PC = a + 4 with no error, whatever the two
skipped bytes are, and a skip not taken leaves a + 2, by the conditions of R150 to R153, R230, R231
(the key is the low nibble: R233, D17, log 17). After a skip taken at 0xFFC or above the next fetch
raises, latched and precise (D8, D9, D10, log 14, log 4, log 12). -/
def Obligations.SkipPassesTwoBytesUnexamined : Prop :=
  ∀ (s : State) (i : Instr), Ready s → s.pc.toNat ≤ 0xFFE →
    decode (wordAt s s.pc.toNat) = .ok i →
    ∀ taken : Bool,
      ((∃ x kk, i = .seImm x kk ∧ taken = decide (s.reg x = kk)) ∨
       (∃ x kk, i = .sneImm x kk ∧ taken = decide (s.reg x ≠ kk)) ∨
       (∃ x y, i = .seReg x y ∧ taken = decide (s.reg x = s.reg y)) ∨
       (∃ x y, i = .sneReg x y ∧ taken = decide (s.reg x ≠ s.reg y)) ∨
       (∃ x, i = .skp x ∧ taken = s.keyDown (keyNumber (s.reg x))) ∨
       (∃ x, i = .sknp x ∧ taken = !s.keyDown (keyNumber (s.reg x)))) →
      ∃ t, step s = .next t ∧ t.pc.toNat = s.pc.toNat + (if taken then 4 else 2) ∧
        t = { s with pc := t.pc, reply := some .ok } ∧
        (taken = true → 0xFFC ≤ s.pc.toNat → NextFetchRaises t)

/-! ## Immediate operations (43_immediate.md) -/

/-- R160: LD Vx, kk. -/
def Obligations.LoadImmediateSetsTheRegister : Prop :=
  ∀ (s : State) (x : Reg) (kk : Byte),
    decode (BitVec.ofNat 16 (0x6000 + x.val * 256 + kk.toNat)) = .ok (.ldImm x kk) ∧
    ∃ t, exec (.ldImm x kk) s = .next t ∧ t.reg x = kk ∧ OnlyRegs (· = x) s t

/-- R161: ADD Vx, kk wraps modulo 256 and writes no flag. -/
def Obligations.AddImmediateWrapsWithoutFlag : Prop :=
  ∀ (s : State) (x : Reg) (kk : Byte),
    decode (BitVec.ofNat 16 (0x7000 + x.val * 256 + kk.toNat)) = .ok (.addImm x kk) ∧
    ∃ t, exec (.addImm x kk) s = .next t ∧
      (t.reg x).toNat = ((s.reg x).toNat + kk.toNat) % 256 ∧ OnlyRegs (· = x) s t

/-- R162 (D18, log 5): RND Vx, kk stores a free byte under the mask, the draw of the model's
counter; every bit that is 0 in kk is 0 afterwards, and the next RND takes another draw. -/
def Obligations.RandomByteIsMasked : Prop :=
  ∀ (s : State) (x : Reg) (kk : Byte),
    decode (BitVec.ofNat 16 (0xC000 + x.val * 256 + kk.toNat)) = .ok (.rnd x kk) ∧
    ∃ t, exec (.rnd x kk) s = .next t ∧ t.reg x = Config.rnd s.draws &&& kk ∧
      (∀ b, kk.getLsbD b = false → (t.reg x).getLsbD b = false) ∧
      t.draws = s.draws + 1 ∧ OnlyRegs (· = x) { s with draws := s.draws + 1 } t

/-! ## Two-register operations (44_alu.md) -/

/-- R171 to R174 (VF unchanged unless it is the destination: D7, log 10): LD, OR, AND, XOR, bit by
bit. -/
def Obligations.CopyAndLogicWriteOnlyTheDestination : Prop :=
  ∀ (s : State) (x y : Reg),
    (decode (BitVec.ofNat 16 (0x8000 + x.val * 256 + y.val * 16)) = .ok (.ldReg x y) ∧
     decode (BitVec.ofNat 16 (0x8001 + x.val * 256 + y.val * 16)) = .ok (.orReg x y) ∧
     decode (BitVec.ofNat 16 (0x8002 + x.val * 256 + y.val * 16)) = .ok (.andReg x y) ∧
     decode (BitVec.ofNat 16 (0x8003 + x.val * 256 + y.val * 16)) = .ok (.xorReg x y)) ∧
    (∃ t, exec (.ldReg x y) s = .next t ∧ t.reg x = s.reg y ∧ OnlyRegs (· = x) s t) ∧
    (∃ t, exec (.orReg x y) s = .next t ∧ OnlyRegs (· = x) s t ∧
      ∀ b, (t.reg x).getLsbD b = ((s.reg x).getLsbD b || (s.reg y).getLsbD b)) ∧
    (∃ t, exec (.andReg x y) s = .next t ∧ OnlyRegs (· = x) s t ∧
      ∀ b, (t.reg x).getLsbD b = ((s.reg x).getLsbD b && (s.reg y).getLsbD b)) ∧
    (∃ t, exec (.xorReg x y) s = .next t ∧ OnlyRegs (· = x) s t ∧
      ∀ b, (t.reg x).getLsbD b = ((s.reg x).getLsbD b ^^ (s.reg y).getLsbD b))

/-- R175 (x = F: D6, log 9): ADD Vx, Vy. -/
def Obligations.AddSetsTheCarry : Prop :=
  ∀ (s : State) (x y : Reg),
    decode (BitVec.ofNat 16 (0x8004 + x.val * 256 + y.val * 16)) = .ok (.addReg x y) ∧
    ∃ t, exec (.addReg x y) s = .next t ∧
      (x ≠ 15 → (t.reg x).toNat = ((s.reg x).toNat + (s.reg y).toNat) % 256) ∧
      (t.reg 15).toNat = (if 256 ≤ (s.reg x).toNat + (s.reg y).toNat then 1 else 0) ∧
      OnlyRegs (fun r => r = x ∨ r = 15) s t

/-- R176, R178 (x = F: D6, log 9): SUB is V[x] - V[y] and SUBN is V[y] - V[x]; VF is 1 when the
minuend is at least the subtrahend. -/
def Obligations.SubtractSetsNotBorrow : Prop :=
  ∀ (s : State) (x y : Reg),
    decode (BitVec.ofNat 16 (0x8005 + x.val * 256 + y.val * 16)) = .ok (.sub x y) ∧
    decode (BitVec.ofNat 16 (0x8007 + x.val * 256 + y.val * 16)) = .ok (.subn x y) ∧
    (∃ t, exec (.sub x y) s = .next t ∧
      (x ≠ 15 → ((t.reg x).toNat : Int) = ((s.reg x).toNat - (s.reg y).toNat : Int) % 256) ∧
      (t.reg 15).toNat = (if (s.reg y).toNat ≤ (s.reg x).toNat then 1 else 0) ∧
      OnlyRegs (fun r => r = x ∨ r = 15) s t) ∧
    (∃ t, exec (.subn x y) s = .next t ∧
      (x ≠ 15 → ((t.reg x).toNat : Int) = ((s.reg y).toNat - (s.reg x).toNat : Int) % 256) ∧
      (t.reg 15).toNat = (if (s.reg x).toNat ≤ (s.reg y).toNat then 1 else 0) ∧
      OnlyRegs (fun r => r = x ∨ r = 15) s t)

/-- R177, R179 (D4, D6, D26, log 6, log 9, log 19): SHR and SHL by one bit of V[y] or V[x] as
SHIFT_SRC_VY says; VF is the bit shifted out. -/
def Obligations.ShiftsMoveOneBitOut : Prop :=
  ∀ (s : State) (x y : Reg),
    decode (BitVec.ofNat 16 (0x8006 + x.val * 256 + y.val * 16)) = .ok (.shr x y) ∧
    decode (BitVec.ofNat 16 (0x800E + x.val * 256 + y.val * 16)) = .ok (.shl x y) ∧
    ∀ a : Byte, a = (if s.cfg.shiftSrcVy then s.reg y else s.reg x) →
      (∃ t, exec (.shr x y) s = .next t ∧ (x ≠ 15 → (t.reg x).toNat = a.toNat / 2) ∧
        (t.reg 15).toNat = a.toNat % 2 ∧ OnlyRegs (fun r => r = x ∨ r = 15) s t) ∧
      (∃ t, exec (.shl x y) s = .next t ∧ (x ≠ 15 → (t.reg x).toNat = a.toNat * 2 % 256) ∧
        (t.reg 15).toNat = a.toNat / 128 ∧ OnlyRegs (fun r => r = x ∨ r = 15) s t)

/-- R21: VF changes only by the six flag-writing instructions and by an instruction that names
register F as its destination (D7, log 10), and the six leave 0 or 1 in it, with x = F too because
the flag is written last (D6, log 9; DRW with n = 0: log 26), unless DRW raises and keeps it (D10,
log 12). -/
def Obligations.VfHasOnlyItsListedWriters : Prop :=
  ∀ (s t : State) (i : Instr), s.fault = none → exec i s = .next t →
    match i with
    | .addReg _ _ | .sub _ _ | .shr _ _ | .subn _ _ | .shl _ _ | .drw _ _ _ =>
      t.reg 15 = 0 ∨ t.reg 15 = 1 ∨ (t.fault ≠ none ∧ t.reg 15 = s.reg 15)
    | .ldImm x _ | .addImm x _ | .rnd x _ | .ldReg x _ | .orReg x _ | .andReg x _ | .xorReg x _
    | .ldVxDt x | .ldVxK x | .regLoad x => x ≠ 15 → t.reg 15 = s.reg 15
    | _ => t.reg 15 = s.reg 15

/-! ## Index register and memory (45_index_memory.md) -/

/-- R190: LD I, nnn. -/
def Obligations.LoadIndexSetsOnlyI : Prop :=
  ∀ (s : State) (nnn : Addr12),
    decode (BitVec.ofNat 16 (0xA000 + nnn.toNat)) = .ok (.ldI nnn) ∧
    ∃ t, exec (.ldI nnn) s = .next t ∧ t.i.toNat = nnn.toNat ∧ OnlyIndex s t

/-- R191, R192 (no flag: D7, log 10; FONT_BASE: D12, log 7): ADD I, Vx wraps modulo 65536 and sets
no flag; LD F, Vx points I at the glyph of the low nibble. -/
def Obligations.AddIndexAndFontAddress : Prop :=
  ∀ (s : State) (x : Reg),
    decode (BitVec.ofNat 16 (0xF01E + x.val * 256)) = .ok (.addI x) ∧
    decode (BitVec.ofNat 16 (0xF029 + x.val * 256)) = .ok (.ldF x) ∧
    (∃ t, exec (.addI x) s = .next t ∧
      t.i.toNat = (s.i.toNat + (s.reg x).toNat) % 65536 ∧ OnlyIndex s t) ∧
    (∃ t, exec (.ldF x) s = .next t ∧ t.i.toNat = 5 * ((s.reg x).toNat % 16) ∧ OnlyIndex s t)

/-- R193: LD B, Vx stores the three decimal digits at I, I+1, I+2, and nothing else changes; I
stays. That the store takes effect below 0x200 too is D14 (R69, log 22). The premise on memory is
the invariant's canonical form. -/
def Obligations.BcdStoresThreeDigits : Prop :=
  ∀ (s : State) (x : Reg), s.mem.wf = true → s.i.toNat + 2 ≤ 0xFFF →
    decode (BitVec.ofNat 16 (0xF033 + x.val * 256)) = .ok (.ldB x) ∧
    ∃ t, exec (.ldB x) s = .next t ∧
      (t.mem.read s.i.toNat).toNat = (s.reg x).toNat / 100 ∧
      (t.mem.read (s.i.toNat + 1)).toNat = (s.reg x).toNat / 10 % 10 ∧
      (t.mem.read (s.i.toNat + 2)).toNat = (s.reg x).toNat % 10 ∧
      (∀ a, a < s.i.toNat ∨ s.i.toNat + 3 ≤ a → t.mem.read a = s.mem.read a) ∧
      t = { s with mem := t.mem }

/-- R194 (D5, log 6, log 11): LD [I], Vx stores V[0] .. V[x] at I .. I+x; I advances by x + 1
exactly under INDEX_INC; nothing else changes. That the stores take effect below 0x200 too is D14
(R69, log 22). -/
def Obligations.RegisterDumpStoresTheRegisters : Prop :=
  ∀ (s : State) (x : Reg), s.mem.wf = true → s.i.toNat + x.val ≤ 0xFFF →
    decode (BitVec.ofNat 16 (0xF055 + x.val * 256)) = .ok (.regDump x) ∧
    ∃ t, exec (.regDump x) s = .next t ∧
      (∀ r : Reg, r.val ≤ x.val → t.mem.read (s.i.toNat + r.val) = s.reg r) ∧
      (∀ a, a < s.i.toNat ∨ s.i.toNat + x.val < a → t.mem.read a = s.mem.read a) ∧
      t.i.toNat = (if s.cfg.indexInc then s.i.toNat + x.val + 1 else s.i.toNat) ∧
      t = { s with mem := t.mem, i := t.i }

/-- R195 (D5, log 6, log 11): LD Vx, [I] loads V[0] .. V[x] from I .. I+x; the registers above
V[x] and memory keep their values; I advances by x + 1 exactly under INDEX_INC. -/
def Obligations.RegisterLoadReadsTheRegisters : Prop :=
  ∀ (s : State) (x : Reg), s.i.toNat + x.val ≤ 0xFFF →
    decode (BitVec.ofNat 16 (0xF065 + x.val * 256)) = .ok (.regLoad x) ∧
    ∃ t, exec (.regLoad x) s = .next t ∧
      (∀ r : Reg, r.val ≤ x.val → t.reg r = s.mem.read (s.i.toNat + r.val)) ∧
      (∀ r : Reg, x.val < r.val → t.reg r = s.reg r) ∧
      (∀ a, t.mem.read a = s.mem.read a) ∧
      t.i.toNat = (if s.cfg.indexInc then s.i.toNat + x.val + 1 else s.i.toNat) ∧
      t = { s with v := t.v, i := t.i }

/-- R195's corner case: a register load from the I of a register dump restores the dumped registers,
whatever the registers hold in between and for both values of INDEX_INC (D5, log 6). For I below
0x200 it rests on the dump's stores taking effect there (D14, R69, log 22). -/
def Obligations.LoadAfterDumpRestoresTheRegisters : Prop :=
  ∀ (s t : State) (x : Reg) (v' : Vector Byte 16), s.mem.wf = true → s.i.toNat + x.val ≤ 0xFFF →
    exec (.regDump x) s = .next t →
    ∃ u, exec (.regLoad x) { t with i := s.i, v := v' } = .next u ∧
      ∀ r : Reg, r.val ≤ x.val → u.reg r = s.reg r

/-- R196, R251 (precise D10, log 12, naturals without a wrap D32, log 29, the latch D9, log 4): a
memory instruction one of whose addresses is above 0xFFF raises AddressOutOfRange and does nothing
else. -/
def Obligations.OutOfRangeAccessIsRaisedBeforeAnyWrite : Prop :=
  ∀ (s : State) (x y : Reg) (n : Nat),
    (0xFFF < s.i.toNat + 2 → ∃ t, exec (.ldB x) s = .next t ∧ Raised .addressOutOfRange s t) ∧
    (0xFFF < s.i.toNat + x.val →
      (∃ t, exec (.regDump x) s = .next t ∧ Raised .addressOutOfRange s t) ∧
      (∃ t, exec (.regLoad x) s = .next t ∧ Raised .addressOutOfRange s t)) ∧
    (0 < n → 0xFFF < s.i.toNat + n - 1 →
      ∃ t, exec (.drw x y n) s = .next t ∧ Raised .addressOutOfRange s t)

/-- 20_memory.md R72: the bytes a register dump stores are the ones a later fetch of their addresses
sees. For addresses below 0x200 it rests on the stores taking effect there (D14, R69, log 22). -/
def Obligations.StoredBytesAreSeenByTheNextFetch : Prop :=
  ∀ (s t : State) (x : Reg) (r r' : Reg), s.mem.wf = true → s.i.toNat + x.val ≤ 0xFFF →
    exec (.regDump x) s = .next t → r'.val = r.val + 1 → r'.val ≤ x.val →
    ∀ pc : Word, pc.toNat = s.i.toNat + r.val →
      ({ t with pc := pc } : State).fetch =
        some (BitVec.ofNat 16 ((s.reg r).toNat * 256 + (s.reg r').toNat),
          { t with pc := pc + 2 })

/-! ## Display (46_display.md) -/

/-- R211: CLS turns every pixel off, as the snapshot then shows, and writes nothing else, VF
included. -/
def Obligations.ClearTurnsEveryPixelOff : Prop :=
  ∀ s : State, decode 0x00E0 = .ok .cls ∧
    ∃ t, exec .cls s = .next t ∧ (∀ px py, t.fb.pixel px py = false) ∧
      displaySnapshot t = List.replicate 32 (List.replicate 64 false) ∧
      t = { s with fb := t.fb } ∧ (∀ r, t.reg r = s.reg r) ∧ ∀ a, t.mem.read a = s.mem.read a

/-- R212, R214 a, b, e (D25, log 18; n = 0 included, log 26): DRW inverts exactly the pixels under
the sprite's 1 bits, wrapped; VF is 1 when one of them was on, else 0; nothing else is written. -/
def Obligations.DrawXorsTheWrappedSprite : Prop :=
  ∀ (s : State) (x y : Reg) (n : Nat), n ≤ 15 → (n = 0 ∨ s.i.toNat + n - 1 ≤ 0xFFF) →
    decode (BitVec.ofNat 16 (0xD000 + x.val * 256 + y.val * 16 + n)) = .ok (.drw x y n) ∧
    ∃ t, exec (.drw x y n) s = .next t ∧
      (∀ px py, (Covered s x y n px py → t.fb.pixel px py = !s.fb.pixel px py) ∧
        (¬ Covered s x y n px py → t.fb.pixel px py = s.fb.pixel px py)) ∧
      ((∃ px py, Covered s x y n px py ∧ s.fb.pixel px py = true) → t.reg 15 = 1) ∧
      ((∀ px py, Covered s x y n px py → s.fb.pixel px py = false) → t.reg 15 = 0) ∧
      (∀ r, r ≠ 15 → t.reg r = s.reg r) ∧ (∀ a, t.mem.read a = s.mem.read a) ∧
      t = { s with v := t.v, fb := t.fb }

/-- R214 c: only the n rows and 8 columns of the wrapped sprite can change. That V[x] is the column
and V[y] the row, and that both wrap, is D25 (log 18); that a DRW that raises changes no pixel is
D10 (log 12). -/
def Obligations.DrawChangesOnlyItsRowsAndColumns : Prop :=
  ∀ (s t : State) (x y : Reg) (n : Nat), exec (.drw x y n) s = .next t →
    ∀ px py, t.fb.pixel px py ≠ s.fb.pixel px py →
      (∃ c, c < 8 ∧ px = ((s.reg x).toNat + c) % 64) ∧
      (∃ r, r < n ∧ py = ((s.reg y).toNat + r) % 32)

/-- R214 d: two DRW in a row with the same coordinate values restore the display; the first sets VF
exactly when a covered pixel was on, the second exactly when one was off before the first (D25, log
18; n = 0 included, log 26). The coordinates can differ only when x or y is F. -/
def Obligations.DrawingTwiceRestoresTheDisplay : Prop :=
  ∀ (s t : State) (x y : Reg) (n : Nat) (pc : Word), n ≤ 15 →
    (n = 0 ∨ s.i.toNat + n - 1 ≤ 0xFFF) → exec (.drw x y n) s = .next t →
    t.reg x = s.reg x → t.reg y = s.reg y →
    ∃ u, exec (.drw x y n) { t with pc := pc } = .next u ∧
      (∀ px py, u.fb.pixel px py = s.fb.pixel px py) ∧ u.fb = s.fb ∧
      (t.reg 15 = 1 ↔ ∃ px py, Covered s x y n px py ∧ s.fb.pixel px py = true) ∧
      (u.reg 15 = 1 ↔ ∃ px py, Covered s x y n px py ∧ s.fb.pixel px py = false)

/-! ## Keypad (47_keypad.md) -/

/-- R230, R231 (the low nibble is the key: D17, log 17): SKP and SKNP. -/
def Obligations.KeySkipsTestTheLowNibbleKey : Prop :=
  ∀ (s : State) (x k : Reg), k.val = (s.reg x).toNat % 16 →
    decode (BitVec.ofNat 16 (0xE09E + x.val * 256)) = .ok (.skp x) ∧
    decode (BitVec.ofNat 16 (0xE0A1 + x.val * 256)) = .ok (.sknp x) ∧
    (∃ t, exec (.skp x) s = .next t ∧
      t.pc = (if s.key[k.val] = true then s.pc + 2 else s.pc) ∧ OnlyPc s t) ∧
    (∃ t, exec (.sknp x) s = .next t ∧
      t.pc = (if s.key[k.val] = false then s.pc + 2 else s.pc) ∧ OnlyPc s t)

/-- R232, R234 (D15, D16, log 15, log 16): LD Vx, K stores the lowest pressed key at once, or
starts the wait when no key is pressed. -/
def Obligations.KeyLoadStoresOrWaits : Prop :=
  ∀ (s : State) (x : Reg),
    decode (BitVec.ofNat 16 (0xF00A + x.val * 256)) = .ok (.ldVxK x) ∧
    (∀ k : Reg, s.key[k.val] = true → (∀ j : Reg, j < k → s.key[j.val] = false) →
      ∃ t, exec (.ldVxK x) s = .next t ∧ (t.reg x).toNat = k.val ∧ OnlyRegs (· = x) s t) ∧
    ((∀ k : Reg, s.key[k.val] = false) →
      exec (.ldVxK x) s = .next { s with mode := .awaitingKey x })

/-! ## Timers (48_timers.md, 60_exceptions.md) -/

/-- R240, R241, R242: LD Vx, DT; LD DT, Vx; LD ST, Vx, and the sound output they give. -/
def Obligations.TimerInstructionsCopyBytes : Prop :=
  ∀ (s : State) (x : Reg),
    (decode (BitVec.ofNat 16 (0xF007 + x.val * 256)) = .ok (.ldVxDt x) ∧
     decode (BitVec.ofNat 16 (0xF015 + x.val * 256)) = .ok (.ldDtVx x) ∧
     decode (BitVec.ofNat 16 (0xF018 + x.val * 256)) = .ok (.ldStVx x)) ∧
    (∃ t, exec (.ldVxDt x) s = .next t ∧ t.reg x = s.dt ∧ OnlyRegs (· = x) s t) ∧
    (∃ t, exec (.ldDtVx x) s = .next t ∧ t.dt = s.reg x ∧ t = { s with dt := t.dt } ∧
      (∀ r, t.reg r = s.reg r) ∧ ∀ a, t.mem.read a = s.mem.read a) ∧
    (∃ t, exec (.ldStVx x) s = .next t ∧ t.st = s.reg x ∧ soundActive t = decide (s.reg x ≠ 0) ∧
      t = { s with st := t.st } ∧ (∀ r, t.reg r = s.reg r) ∧ ∀ a, t.mem.read a = s.mem.read a)

/-- R261 (in every MODE and under FAULT: D27, log 25; the source's property E9): n TICK events lower
each timer by n, not below 0, and change nothing else of the spec's state. Of the model's own
fields, the events are used up (log 1) and the reply is none (log 2). -/
def Obligations.TicksLowerBothTimersToZero : Prop :=
  ∀ (n : Nat) (s : State), s.pending = List.replicate (n + 1) .tick →
    ∃ t, Host.Core.run Sys2Proof.core (n + 1) s = .next t ∧
      t.dt.toNat = s.dt.toNat - (n + 1) ∧ t.st.toNat = s.st.toNat - (n + 1) ∧
      t = { s with dt := t.dt, st := t.st, pending := [], reply := none }

/-- R262 (D27, D29, log 25, log 27): SET_KEY(k, b) writes KEY[k] and nothing else of the spec's
state. Of the model's own fields, the event is used up (log 1) and the reply is none (log 2). -/
def Obligations.SetKeyWritesOneKey : Prop :=
  ∀ (s : State) (k : Reg) (b : Bool) (rest : List HostEvent), s.pending = .setKey k b :: rest →
    ∃ t, step s = .next t ∧ t.key[k.val] = b ∧
      (∀ j : Reg, j ≠ k → t.key[j.val] = s.key[j.val]) ∧
      t = { s with key := t.key, pending := rest, reply := none }

/-- R264: sound_active is true exactly when ST > 0. -/
def Obligations.SoundIsActiveWhileStIsPositive : Prop :=
  ∀ s : State, soundActive s = true ↔ 0 < s.st.toNat

/-- R263, R29 (D30, log 33; a row as a bit vector: log 31): display_snapshot is the 32 rows of 64
pixels of FB, top left first. -/
def Obligations.SnapshotIsTheGridOfPixels : Prop :=
  ∀ s : State, (displaySnapshot s).length = 32 ∧ (∀ row ∈ displaySnapshot s, row.length = 64) ∧
    ∀ px py, px < 64 → py < 32 →
      ((displaySnapshot s)[py]?.bind fun row => row[px]?) = some (s.fb.pixel px py)

/-! ## Loading and reset (70_reset_and_hazards.md) -/

/-- R40, R300, R303: the power-on state. The register values, the released keys and the empty ROMIMG
are the spec's table for power-on (D19, D20, log 20; STACK D24, log 21), FONT its conventional bytes
at 0x000 with zeroes above (D12, D13, log 7). -/
def Obligations.PowerOnStateIsAsListed : Prop :=
  (∀ r, State.reset.reg r = 0) ∧ State.reset.i = 0 ∧ State.reset.pc = 0x200 ∧
  State.reset.sp = 0 ∧ (∀ k : Fin 16, State.reset.stack[k.val] = 0) ∧
  State.reset.dt = 0 ∧ State.reset.st = 0 ∧
  (∀ a, a < 80 → State.reset.mem.read a = Config.font.getD a 0) ∧
  (∀ a, 80 ≤ a → State.reset.mem.read a = 0) ∧
  (∀ px py, State.reset.fb.pixel px py = false) ∧ (∀ k, State.reset.keyDown k = false) ∧
  State.reset.mode = .running ∧ State.reset.fault = none ∧ State.reset.romimg = []

/-- R301, R303: LOAD of at most 3584 bytes gives every element of state its value; KEY and CFG stay.
Choices in it: FB, MODE, FAULT and KEY (D19, log 20), STACK's entries (D24, log 21), FONT at 0x000
with its bytes and zeroes above it (D12, D13, log 7). Of the model's own fields, the draw counter
stays (log 5), the reply is Ok (log 2) and the later events stay pending (log 1). -/
def Obligations.LoadInitialisesTheMachine : Prop :=
  ∀ (s : State) (rom : List Byte) (rest : List HostEvent),
    s.pending = .load rom :: rest → rom.length ≤ 3584 →
    ∃ t, step s = .next t ∧ t.reply = some .ok ∧
      (∀ j, j < rom.length → t.mem.read (0x200 + j) = rom.getD j 0) ∧
      (∀ a, a < 80 → t.mem.read a = Config.font.getD a 0) ∧
      (∀ a, 80 ≤ a → a < 0x200 ∨ 0x200 + rom.length ≤ a → t.mem.read a = 0) ∧
      (∀ r, t.reg r = 0) ∧ t.i = 0 ∧ t.pc = 0x200 ∧ t.sp = 0 ∧
      (∀ k : Fin 16, t.stack[k.val] = 0) ∧ t.dt = 0 ∧ t.st = 0 ∧
      (∀ px py, t.fb.pixel px py = false) ∧ t.mode = .running ∧ t.fault = none ∧
      t.romimg = rom ∧ t.key = s.key ∧ t.cfg = s.cfg ∧ t.draws = s.draws ∧ t.pending = rest

/-- R255, R301 (D21, log 23): LOAD of more than 3584 bytes returns RomTooLarge and changes nothing
of the spec's state. Of the model's own fields, the event is used up (log 1) and the reply is the
error (log 2). -/
def Obligations.TooLargeRomChangesNothing : Prop :=
  ∀ (s : State) (rom : List Byte) (rest : List HostEvent),
    s.pending = .load rom :: rest → 3584 < rom.length →
    step s = .next { s with pending := rest, reply := some (.error .romTooLarge) }

/-- R302: RESET leaves the state that a LOAD of the retained ROM would leave (KEY kept by both: D19,
log 20), and returns nothing (the reply is the model's own field, log 2). The premise is the
invariant's bound on ROMIMG. -/
def Obligations.ResetIsAFreshLoadOfTheSameRom : Prop :=
  ∀ (s : State) (rest : List HostEvent), s.pending = .reset :: rest → s.romimg.length ≤ 3584 →
    ∃ t, step s = .next { t with reply := none } ∧
      step { s with pending := .load s.romimg :: rest } = .next t ∧ t.romimg = s.romimg

/-- R32, R259 (the latch D9, log 4, kept by a failed LOAD D21, log 23): a latched error stays until
a successful LOAD or a RESET. -/
def Obligations.OnlyLoadAndResetClearALatchedError : Prop :=
  ∀ (s t : State) (k : FatalKind), s.fault = some k → step s = .next t → t.fault ≠ some k →
    (∃ rest, s.pending = .reset :: rest) ∨
    (∃ rom rest, s.pending = .load rom :: rest ∧ rom.length ≤ 3584)

/-! ## The whole machine -/

/-- R20 to R34, R41, R144 d: each element of state changes only by its listed writers among the
instructions; KEY, CFG and ROMIMG by none. For PC that is the change after the fetch's advance.
Choices in it: VF is left by OR, AND, XOR, LD and ADD I (D7, log 10), I changes by a register dump
or load only under INDEX_INC (D5, log 6), an instruction that raises writes nothing but FAULT (D9,
D10, log 4, log 12), SP and STACK are D24 (log 21). The clauses on `pending`, `draws` and `reply`
are about the model's own fields (log 1, log 5, log 2). -/
def Obligations.EachElementHasOnlyItsListedWriters : Prop :=
  ∀ (s t : State) (i : Instr), exec i s = .next t →
    t.key = s.key ∧ t.cfg = s.cfg ∧ t.romimg = s.romimg ∧ t.pending = s.pending ∧
    (∀ r, t.reg r ≠ s.reg r → writesReg r i) ∧
    (t.pc ≠ s.pc → writesPc i) ∧
    (t.i ≠ s.i → (∃ nnn, i = .ldI nnn) ∨ (∃ x, i = .addI x) ∨ (∃ x, i = .ldF x) ∨
      (s.cfg.indexInc = true ∧ ∃ x, i = .regDump x ∨ i = .regLoad x)) ∧
    (t.sp ≠ s.sp → (∃ nnn, i = .call nnn) ∨ i = .ret) ∧
    (t.stack ≠ s.stack → ∃ nnn, i = .call nnn) ∧
    (t.dt ≠ s.dt → ∃ x, i = .ldDtVx x) ∧
    (t.st ≠ s.st → ∃ x, i = .ldStVx x) ∧
    (t.mem ≠ s.mem → ∃ x, i = .ldB x ∨ i = .regDump x) ∧
    (t.fb ≠ s.fb → i = .cls ∨ ∃ x y n, i = .drw x y n) ∧
    (t.mode ≠ s.mode → ∃ x, i = .ldVxK x) ∧
    (t.fault ≠ s.fault → i = .ret ∨ (∃ nnn, i = .call nnn) ∨ usesMemory i = true) ∧
    (t.draws ≠ s.draws → ∃ x kk, i = .rnd x kk) ∧
    (t.reply ≠ s.reply → i = .ret ∨ (∃ nnn, i = .call nnn) ∨ usesMemory i = true)

/-- R309 (D31, log 33): from a state at a self-jump every further CYCLE leaves all state unchanged
and returns Ok (the reply: log 2). -/
def Obligations.SelfJumpRepeatsForEver : Prop :=
  ∀ (n : Nat) (s : State), s.pending = [] → s.atSelfJump →
    Host.Core.run Sys2Proof.core (n + 1) s = .next { s with reply := some .ok }

/-- The reachable-state invariant (the canonical memory of log 7; R23's bound on PC, which is not
wrapped at 12 bits: D8, log 14; R41's on the stack entries; R34's on ROMIMG) is kept by every step,
whatever event it serves (log 1). -/
def Obligations.EveryStepKeepsTheInvariant : Prop :=
  ∀ s t : State, s.Inv → step s = .next t → t.Inv

/-- The invariant holds at power-on (D20, log 20). -/
def Obligations.PowerOnMeetsTheInvariant : Prop := State.reset.Inv

/-- The model's placing of an instruction word (log 24): the next step runs exactly the placed
instruction, with the reply Ok noted before exec (log 2). -/
def Obligations.PlacedWordIsRunByTheNextStep : Prop :=
  ∀ (s : State) (w : Word) (i : Instr), s.mem.wf = true → decode w = .ok i →
    let p := s.withFetchWord 16 w.toNat
    step p = exec i { p with pc := p.pc + 2, reply := some .ok }
end

