-- ==== Sys2Proof/Laws/Display.lean ====
section
/-!
SUPPORT. What drawing does (46_display.md R212, R214): a draw is a fold over the list of the
pixels its 1 bits land on, a list without repeats for at most 32 rows; so a pixel is inverted
exactly when it is on the list, and a collision is a listed pixel that was on.
-/

namespace Sys2Proof.Machine

/-! ## Pixels -/

theorem pixel_invert (d : Display) {x y : Nat} (hx : x < 64) (hy : y < 32) (px py : Nat) :
    (d.invert x y).pixel px py = (d.pixel px py ^^ (decide (px = x) && decide (py = y))) := by
  unfold Display.pixel Display.invert
  rw [dif_pos hy]
  by_cases hp : py < 32
  · rw [dif_pos hp, dif_pos hp, Vector.getElem_set]
    by_cases e : y = py
    · subst e
      simp only [if_true, BitVec.getLsbD_xor, BitVec.getLsbD_twoPow, decide_true, Bool.and_true]
      congr 1
      by_cases e : px = x
      · simp [e, hx]
      · simp [e, hx, Ne.symm e]
    · simp [e, Ne.symm e]
  · rw [dif_neg hp, dif_neg hp]
    simp [show py ≠ y by omega]

@[simp] theorem pixel_clear (px py : Nat) : Display.clear.pixel px py = false := by
  unfold Display.pixel Display.clear
  split <;> simp

/-! ## Drawing a list of pixels -/

/-- Draw 1 bits at the listed pixels, in order. -/
def drawPoints (ps : List (Nat × Nat)) (d : Display × Bool) : Display × Bool :=
  ps.foldl (fun d p => drawBit true p.1 p.2 d) d

/-- The pixels of one sprite row. -/
def rowPoints (x0 py : Nat) (b : Byte) : List (Nat × Nat) :=
  ((List.range 8).filter (spriteBit b)).map fun c => ((x0 + c) % 64, py)

/-- The pixels of the sprite rows from display row `y0` on. -/
def spritePoints (x0 : Nat) : Nat → List Byte → List (Nat × Nat)
  | _, [] => []
  | y0, b :: bs => rowPoints x0 (y0 % 32) b ++ spritePoints x0 (y0 + 1) bs

theorem drawRow_eq (x0 py : Nat) (b : Byte) (d : Display × Bool) :
    drawRow x0 py b d = drawPoints (rowPoints x0 py b) d := by
  rw [drawRow, drawPoints, rowPoints, List.foldl_map, List.foldl_filter]
  rfl

theorem drawRows_eq (x0 y0 : Nat) (bs : List Byte) (d : Display × Bool) :
    drawRows x0 y0 bs d = drawPoints (spritePoints x0 y0 bs) d := by
  induction bs generalizing y0 d with
  | nil => rfl
  | cons b bs ih => rw [drawRows, ih, drawRow_eq, spritePoints, drawPoints, drawPoints, drawPoints,
      List.foldl_append]

theorem mem_rowPoints {x0 py : Nat} {b : Byte} {p : Nat × Nat} :
    p ∈ rowPoints x0 py b ↔ ∃ c < 8, spriteBit b c = true ∧ p = ((x0 + c) % 64, py) := by
  simp only [rowPoints, List.mem_map, List.mem_filter, List.mem_range]
  exact ⟨fun ⟨c, ⟨h1, h2⟩, h3⟩ => ⟨c, h1, h2, h3.symm⟩, fun ⟨c, h1, h2, h3⟩ => ⟨c, ⟨h1, h2⟩, h3.symm⟩⟩

/-- The pixels a sprite touches: those of the 1 bits of its rows, wrapped (R212). -/
theorem mem_spritePoints {x0 y0 : Nat} {bs : List Byte} {p : Nat × Nat} :
    p ∈ spritePoints x0 y0 bs ↔ ∃ r < bs.length, ∃ c < 8,
      spriteBit (bs.getD r 0) c = true ∧ p = ((x0 + c) % 64, (y0 + r) % 32) := by
  induction bs generalizing y0 with
  | nil => simp [spritePoints]
  | cons b bs ih =>
    rw [spritePoints, List.mem_append, mem_rowPoints, ih]
    constructor
    · rintro (⟨c, hc, hb, e⟩ | ⟨r, hr, c, hc, hb, e⟩)
      · exact ⟨0, by simp, c, hc, by simpa using hb, by simpa using e⟩
      · exact ⟨r + 1, by simpa using hr, c, hc, by simpa using hb,
          by rw [e, Nat.add_assoc, Nat.add_comm 1 r]⟩
    · rintro ⟨r, hr, c, hc, hb, e⟩
      cases r with
      | zero => exact .inl ⟨c, hc, by simpa using hb, by simpa using e⟩
      | succ r => exact .inr ⟨r, by simpa using hr, c, hc, by simpa using hb,
          by rw [e, Nat.add_assoc, Nat.add_comm 1 r]⟩

theorem rowPoints_nodup (x0 py : Nat) (b : Byte) : (rowPoints x0 py b).Nodup := by
  refine List.Nodup.map_on ?_ (List.nodup_range.filter _)
  intro c hc c' hc' e
  simp only [List.mem_filter, List.mem_range] at hc hc'
  have := congrArg Prod.fst e
  simp only at this
  omega

/-- At most 32 rows: no pixel is touched twice by one draw (R212). -/
theorem spritePoints_nodup (x0 y0 : Nat) (bs : List Byte) (h : bs.length ≤ 32) :
    (spritePoints x0 y0 bs).Nodup := by
  induction bs generalizing y0 with
  | nil => exact List.nodup_nil
  | cons b bs ih =>
    simp only [List.length_cons] at h
    refine List.nodup_append.2 ⟨rowPoints_nodup _ _ _, ih _ (by omega), ?_⟩
    intro p hp q hq
    obtain ⟨c, -, -, rfl⟩ := mem_rowPoints.1 hp
    obtain ⟨r, hr, c', -, -, rfl⟩ := mem_spritePoints.1 hq
    intro e
    have := congrArg Prod.snd e
    simp only at this
    omega

/-- Drawing a list of pixels leaves every pixel that is not listed. -/
theorem pixel_drawPoints_of_not_mem (ps : List (Nat × Nat)) (hb : ∀ p ∈ ps, p.1 < 64 ∧ p.2 < 32)
    (d : Display × Bool) {px py : Nat} (h : (px, py) ∉ ps) :
    (drawPoints ps d).1.pixel px py = d.1.pixel px py := by
  induction ps generalizing d with
  | nil => rfl
  | cons p ps ih =>
    have hb' := hb p (by simp)
    rw [List.mem_cons, not_or] at h
    have := ih (fun q hq => hb q (by simp [hq])) (drawBit true p.1 p.2 d) h.2
    rw [drawPoints, List.foldl_cons]
    rw [drawPoints] at this
    have hf : (decide (px = p.1) && decide (py = p.2)) = false := by
      simpa using fun h1 h2 => h.1 (Prod.ext h1 h2)
    rw [this]
    simp [drawBit, pixel_invert _ hb'.1 hb'.2, hf]

/-- Drawing a list of pixels without repeats inverts exactly the listed pixels. -/
theorem pixel_drawPoints (ps : List (Nat × Nat)) (hn : ps.Nodup)
    (hb : ∀ p ∈ ps, p.1 < 64 ∧ p.2 < 32) (d : Display × Bool) (px py : Nat) :
    (drawPoints ps d).1.pixel px py = (d.1.pixel px py ^^ decide ((px, py) ∈ ps)) := by
  induction ps generalizing d with
  | nil => simp [drawPoints]
  | cons p ps ih =>
    obtain ⟨hp, hn⟩ := List.nodup_cons.1 hn
    have hb' := hb p (by simp)
    have := ih hn (fun q hq => hb q (by simp [hq])) (drawBit true p.1 p.2 d)
    rw [drawPoints, List.foldl_cons]
    rw [drawPoints] at this
    rw [this]
    simp only [drawBit, if_true, pixel_invert _ hb'.1 hb'.2, Bool.xor_assoc]
    congr 1
    by_cases e : (px, py) = p
    · subst e; simp [hp]
    · have : ¬(px = p.1 ∧ py = p.2) := fun h => e (Prod.ext h.1 h.2)
      have hf : (decide (px = p.1) && decide (py = p.2)) = false := by
        simpa using this
      simp [hf, e]

/-- Drawing a list of pixels without repeats collides exactly when a listed pixel was on. -/
theorem collision_drawPoints (ps : List (Nat × Nat)) (hn : ps.Nodup)
    (hb : ∀ p ∈ ps, p.1 < 64 ∧ p.2 < 32) (d : Display × Bool) :
    (drawPoints ps d).2 = (d.2 || ps.any fun p => d.1.pixel p.1 p.2) := by
  induction ps generalizing d with
  | nil => simp [drawPoints]
  | cons p ps ih =>
    obtain ⟨hp, hn⟩ := List.nodup_cons.1 hn
    have hb' := hb p (by simp)
    have := ih hn (fun q hq => hb q (by simp [hq])) (drawBit true p.1 p.2 d)
    rw [drawPoints, List.foldl_cons]
    rw [drawPoints] at this
    rw [this, List.any_cons]
    simp only [drawBit, if_true, Bool.or_assoc]
    congr 2
    refine Bool.eq_iff_iff.2 ?_
    simp only [List.any_eq_true]
    refine exists_congr fun q => and_congr_right fun hq => ?_
    have hqp : q ≠ p := fun e => hp (e ▸ hq)
    have hf : (decide (q.1 = p.1) && decide (q.2 = p.2)) = false := by
      simpa using fun h1 h2 => hqp (Prod.ext h1 h2)
    rw [pixel_invert _ hb'.1 hb'.2, hf, Bool.xor_false]

theorem spritePoints_bound {x0 y0 : Nat} {bs : List Byte} {p : Nat × Nat}
    (hp : p ∈ spritePoints x0 y0 bs) : p.1 < 64 ∧ p.2 < 32 := by
  obtain ⟨r, -, c, -, -, rfl⟩ := mem_spritePoints.1 hp
  exact ⟨Nat.mod_lt _ (by decide), Nat.mod_lt _ (by decide)⟩

/-- The display after a draw of at most 32 rows: XOR with the wrapped sprite (R214 a). -/
theorem pixel_drawRows (x0 y0 : Nat) (bs : List Byte) (h : bs.length ≤ 32) (d : Display × Bool)
    (px py : Nat) :
    (drawRows x0 y0 bs d).1.pixel px py =
      (d.1.pixel px py ^^ decide ((px, py) ∈ spritePoints x0 y0 bs)) := by
  rw [drawRows_eq]
  exact pixel_drawPoints _ (spritePoints_nodup x0 y0 bs h) (fun _ => spritePoints_bound) d px py

/-- The collision of a draw of at most 32 rows: a touched pixel was on (R214 b). -/
theorem collision_drawRows (x0 y0 : Nat) (bs : List Byte) (h : bs.length ≤ 32)
    (d : Display × Bool) :
    (drawRows x0 y0 bs d).2 =
      (d.2 || (spritePoints x0 y0 bs).any fun p => d.1.pixel p.1 p.2) := by
  rw [drawRows_eq]
  exact collision_drawPoints _ (spritePoints_nodup x0 y0 bs h) (fun _ => spritePoints_bound) d

/-- Displays whose pixels agree are the same data. -/
theorem display_ext {d d' : Display}
    (h : ∀ px py, px < 64 → py < 32 → d.pixel px py = d'.pixel px py) : d = d' := by
  refine Vector.ext fun y hy => BitVec.eq_of_getLsbD_eq fun x hx => ?_
  have := h x y hx hy
  unfold Display.pixel at this
  rwa [dif_pos hy, dif_pos hy] at this

end Sys2Proof.Machine
end

