-- ==== Sys2Proof/Laws/Encoding.lean ====
section
/-!
SUPPORT. The fields of the words that the encoder's formats make, the words of two bytes, and
masking a word with the masks of the opcode table, as fields.
-/

namespace Sys2Proof

/-! ## Fields of the formats of R92 -/

@[simp] theorem fieldOp_encAddr {op : Nat} (nnn : Addr12) (h : op < 16) :
    fieldOp (encAddr op nnn) = op := by
  have := nnn.isLt
  simp only [fieldOp, bits, encAddr, BitVec.toNat_ofNat]
  omega

@[simp] theorem fieldNnn_encAddr (op : Nat) (nnn : Addr12) : fieldNnn (encAddr op nnn) = nnn := by
  have := nnn.isLt
  apply BitVec.eq_of_toNat_eq
  simp only [fieldNnn, bits, encAddr, BitVec.toNat_ofNat]
  omega

@[simp] theorem fieldOp_encRegImm {op : Nat} (x : Reg) (kk : Byte) (h : op < 16) :
    fieldOp (encRegImm op x kk) = op := by
  have := kk.isLt
  have := x.isLt
  simp only [fieldOp, bits, encRegImm, BitVec.toNat_ofNat]
  omega

@[simp] theorem fieldX_encRegImm (op : Nat) (x : Reg) (kk : Byte) :
    fieldX (encRegImm op x kk) = x := by
  have := kk.isLt
  have := x.isLt
  apply Fin.ext
  simp only [fieldX, bits, encRegImm, BitVec.toNat_ofNat, Fin.val_ofNat]
  omega

@[simp] theorem fieldKk_encRegImm (op : Nat) (x : Reg) (kk : Byte) :
    fieldKk (encRegImm op x kk) = kk := by
  have := kk.isLt
  apply BitVec.eq_of_toNat_eq
  simp only [fieldKk, bits, encRegImm, BitVec.toNat_ofNat]
  omega

@[simp] theorem fieldOp_encRegReg {op n : Nat} (x y : Reg) (h : op < 16) (hn : n < 16) :
    fieldOp (encRegReg op x y n) = op := by
  have := x.isLt
  have := y.isLt
  simp only [fieldOp, bits, encRegReg, BitVec.toNat_ofNat]
  omega

@[simp] theorem fieldX_encRegReg {n : Nat} (op : Nat) (x y : Reg) (hn : n < 16) :
    fieldX (encRegReg op x y n) = x := by
  have := x.isLt
  have := y.isLt
  apply Fin.ext
  simp only [fieldX, bits, encRegReg, BitVec.toNat_ofNat, Fin.val_ofNat]
  omega

@[simp] theorem fieldY_encRegReg {n : Nat} (op : Nat) (x y : Reg) (hn : n < 16) :
    fieldY (encRegReg op x y n) = y := by
  have := x.isLt
  have := y.isLt
  apply Fin.ext
  simp only [fieldY, bits, encRegReg, BitVec.toNat_ofNat, Fin.val_ofNat]
  omega

@[simp] theorem fieldN_encRegReg {n : Nat} (op : Nat) (x y : Reg) (hn : n < 16) :
    fieldN (encRegReg op x y n) = n := by
  simp only [fieldN, bits, encRegReg, BitVec.toNat_ofNat]
  omega

@[simp] theorem fieldOp_encRegSub {op sub : Nat} (x : Reg) (h : op < 16) (hs : sub < 256) :
    fieldOp (encRegSub op x sub) = op := by
  have := x.isLt
  simp only [fieldOp, bits, encRegSub, BitVec.toNat_ofNat]
  omega

@[simp] theorem fieldX_encRegSub {sub : Nat} (op : Nat) (x : Reg) (hs : sub < 256) :
    fieldX (encRegSub op x sub) = x := by
  have := x.isLt
  apply Fin.ext
  simp only [fieldX, bits, encRegSub, BitVec.toNat_ofNat, Fin.val_ofNat]
  omega

@[simp] theorem lowBits_encRegSub {sub : Nat} (op : Nat) (x : Reg) (hs : sub < 256) :
    bits (encRegSub op x sub) 7 0 = sub := by
  simp only [bits, encRegSub, BitVec.toNat_ofNat]
  omega

/-! ## Bytes of a word (20_memory.md R65) -/

@[simp] theorem wordOfBytes_high_low (w : Word) : wordOfBytes (highByte w) (lowByte w) = w := by
  have := w.isLt
  apply BitVec.eq_of_toNat_eq
  simp only [wordOfBytes, highByte, lowByte, bits, BitVec.toNat_ofNat]
  omega

/-! ## The masks of R94 -/

/-- The mask F000 keeps the field op. -/
theorem and_F000 (w : Word) : w &&& 0xF000 = BitVec.ofNat 16 (fieldOp w * 4096) := by
  apply BitVec.eq_of_getLsbD_eq
  intro i hi
  rw [BitVec.getLsbD_and, ← BitVec.testBit_toNat w, ← BitVec.testBit_toNat (BitVec.ofNat _ _)]
  interval_cases i <;>
    simp [fieldOp, bits, Nat.testBit_eq_decide_div_mod_eq] <;> omega

/-- The mask F00F keeps the fields op and n. -/
theorem and_F00F (w : Word) : w &&& 0xF00F = BitVec.ofNat 16 (fieldOp w * 4096 + fieldN w) := by
  apply BitVec.eq_of_getLsbD_eq
  intro i hi
  rw [BitVec.getLsbD_and, ← BitVec.testBit_toNat w, ← BitVec.testBit_toNat (BitVec.ofNat _ _)]
  interval_cases i <;>
    simp [fieldOp, fieldN, bits, Nat.testBit_eq_decide_div_mod_eq] <;> omega

/-- The mask F0FF keeps the field op and the low byte. -/
theorem and_F0FF (w : Word) :
    w &&& 0xF0FF = BitVec.ofNat 16 (fieldOp w * 4096 + bits w 7 0) := by
  apply BitVec.eq_of_getLsbD_eq
  intro i hi
  rw [BitVec.getLsbD_and, ← BitVec.testBit_toNat w, ← BitVec.testBit_toNat (BitVec.ofNat _ _)]
  interval_cases i <;>
    simp [fieldOp, bits, Nat.testBit_eq_decide_div_mod_eq] <;> omega

end Sys2Proof
end

