-- ==== Sys2Proof/Laws/Memory.lean ====
section
/-!
SUPPORT. The laws of memory: reads after writes, blocks, the canonical form kept by every
operation, and equality of canonical memories that read alike.
-/

namespace Sys2Proof.Machine

/-! ## The address check -/

theorem rangeOk_iff {a n : Nat} : rangeOk a n = true ↔ n = 0 ∨ a + n ≤ 4096 := by
  simp only [rangeOk, Bool.or_eq_true, beq_iff_eq, decide_eq_true_eq, Config.memLast]
  omega

theorem rangeOk_false_iff {a n : Nat} : rangeOk a n = false ↔ 0 < n ∧ 4096 < a + n := by
  rw [← Bool.not_eq_true, rangeOk_iff]
  omega

/-! ## The contents after power-on -/

/-- The font area (10_state.md R35, R40). -/
theorem background_of_lt {a : Nat} (_ : a < 80) : Memory.background a = Config.font.getD a 0 := rfl

/-- Everything above the font area is zero (R40). -/
theorem background_of_ge {a : Nat} (h : 80 ≤ a) : Memory.background a = 0 := by
  unfold Memory.background
  rw [if_pos (Nat.zero_le _), List.getD_eq_default]
  exact h

/-! ## The canonical form -/

theorem wfFrom_cons {lo k : Nat} {b : Byte} {m : Memory} :
    Memory.wfFrom lo ((k, b) :: m) = true ↔
      lo ≤ k ∧ k ≤ 4095 ∧ b ≠ Memory.background k ∧ Memory.wfFrom (k + 1) m = true := by
  simp only [Memory.wfFrom, Bool.and_eq_true, decide_eq_true_eq, and_assoc]

theorem wfFrom_mono {lo lo' : Nat} {m : Memory} (h : Memory.wfFrom lo' m = true) (le : lo ≤ lo') :
    Memory.wfFrom lo m = true := by
  cases m with
  | nil => rfl
  | cons c m =>
    rw [wfFrom_cons] at h ⊢
    exact ⟨by omega, h.2⟩

/-- A canonical memory reads as the background below its first possible entry. -/
theorem read_of_lt {lo a : Nat} {m : Memory} (h : Memory.wfFrom lo m = true) (lt : a < lo) :
    m.read a = Memory.background a := by
  induction m generalizing lo with
  | nil => rfl
  | cons c m ih =>
    obtain ⟨h1, -, -, h4⟩ := wfFrom_cons.1 h
    rw [Memory.read, if_neg (by omega)]
    exact ih h4 (by omega)

theorem put_wfFrom {lo a : Nat} {m : Memory} (b : Byte) (h : Memory.wfFrom lo m = true)
    (le : lo ≤ a) (last : a ≤ 4095) : Memory.wfFrom lo (m.put a b) = true := by
  induction m generalizing lo with
  | nil =>
    unfold Memory.put
    split
    · rfl
    · exact wfFrom_cons.2 ⟨le, last, ‹_›, rfl⟩
  | cons c m ih =>
    obtain ⟨k, c⟩ := c
    obtain ⟨h1, h2, h3, h4⟩ := wfFrom_cons.1 h
    unfold Memory.put
    split
    · exact wfFrom_cons.2 ⟨h1, h2, h3, ih h4 (by omega)⟩
    · by_cases hk : k = a
      · subst hk
        simp only [if_true]
        split
        · exact wfFrom_mono h4 (by omega)
        · exact wfFrom_cons.2 ⟨le, last, ‹_›, h4⟩
      · simp only [if_neg hk]
        split
        · exact h
        · exact wfFrom_cons.2 ⟨le, last, ‹_›, wfFrom_cons.2 ⟨by omega, h2, h3, h4⟩⟩

theorem read_put {lo : Nat} {m : Memory} (h : Memory.wfFrom lo m = true) (a x : Nat) (b : Byte) :
    (m.put a b).read x = if x = a then b else m.read x := by
  induction m generalizing lo with
  | nil =>
    unfold Memory.put
    by_cases hx : x = a
    · subst hx; split <;> simp_all [Memory.read]
    · split <;> simp_all [Memory.read, Ne.symm hx]
  | cons c m ih =>
    obtain ⟨k, c⟩ := c
    obtain ⟨-, -, -, h4⟩ := wfFrom_cons.1 h
    unfold Memory.put
    split
    case isTrue lt =>
      rw [Memory.read, Memory.read, ih h4]
      by_cases hx : x = a
      · subst hx; simp [show k ≠ x by omega]
      · simp [hx]
    case isFalse ge =>
      by_cases hk : k = a
      · subst hk
        simp only [if_true]
        by_cases hx : x = k
        · subst hx
          split
          · simp_all [read_of_lt h4 (Nat.lt_succ_self x)]
          · simp [Memory.read]
        · split <;> simp [Memory.read, Ne.symm hx]
      · simp only [if_neg hk]
        by_cases hx : x = a
        · subst hx
          split
          · next hb =>
            rw [if_pos rfl, hb]
            exact read_of_lt (wfFrom_cons.2 ⟨Nat.le_refl k, (wfFrom_cons.1 h).2⟩) (by omega)
          · simp [Memory.read]
        · split <;> simp [Memory.read, Ne.symm hx]

/-! ## One byte -/

theorem write_wf {m : Memory} (h : m.wf = true) (a : Nat) (b : Byte) : (m.write a b).wf = true := by
  unfold Memory.write
  split
  · exact put_wfFrom b h (Nat.zero_le a) ‹_›
  · exact h

/-- Read after write (20_memory.md R63, R70). -/
theorem read_write {m : Memory} (h : m.wf = true) (a x : Nat) (b : Byte) :
    (m.write a b).read x = if x = a ∧ a ≤ 4095 then b else m.read x := by
  unfold Memory.write Config.memLast
  split
  · rw [read_put h]; simp [*]
  · simp [*]

/-! ## Blocks -/

@[simp] theorem readBlock_length (m : Memory) (a n : Nat) : (m.readBlock a n).length = n := by
  induction n generalizing a with
  | zero => rfl
  | succ n ih => simp [Memory.readBlock, ih]

theorem readBlock_getElem? (m : Memory) (a n r : Nat) :
    (m.readBlock a n)[r]? = if r < n then some (m.read (a + r)) else none := by
  induction n generalizing a r with
  | zero => simp [Memory.readBlock]
  | succ n ih =>
    cases r with
    | zero => simp [Memory.readBlock]
    | succ r => simp [Memory.readBlock, ih, Nat.add_assoc, Nat.add_comm 1 r]

theorem readBlock_getElem (m : Memory) (a n r : Nat) (h : r < (m.readBlock a n).length) :
    (m.readBlock a n)[r] = m.read (a + r) := by
  have h' := readBlock_getElem? m a n r
  rw [readBlock_length] at h
  rw [if_pos h] at h'
  exact (List.getElem?_eq_some_iff.1 h').2

theorem writeBlock_wf {m : Memory} (h : m.wf = true) (a : Nat) (bs : List Byte) :
    (m.writeBlock a bs).wf = true := by
  induction bs generalizing m a with
  | nil => exact h
  | cons b bs ih => exact ih (write_wf h a b) (a + 1)

/-- What memory reads after a block of stores (R66, R70): the bytes in ascending order, and
every other address as before. -/
theorem read_writeBlock {m : Memory} (h : m.wf = true) (a x : Nat) (bs : List Byte)
    (last : a + bs.length ≤ 4096) :
    (m.writeBlock a bs).read x =
      if a ≤ x ∧ x < a + bs.length then bs.getD (x - a) 0 else m.read x := by
  induction bs generalizing m a with
  | nil => simp [Memory.writeBlock, show ¬(a ≤ x ∧ x < a) by omega]
  | cons b bs ih =>
    simp only [List.length_cons] at last
    rw [Memory.writeBlock, ih (write_wf h a b) (a + 1) (by omega), read_write h]
    simp only [List.length_cons]
    by_cases hx : x = a
    · subst hx
      rw [if_neg (by omega), if_pos (by omega), if_pos (by omega)]
      simp
    · rw [if_neg (by omega : ¬(x = a ∧ a ≤ 4095))]
      by_cases hr : a + 1 ≤ x ∧ x < a + 1 + bs.length
      · rw [if_pos hr, if_pos (by omega)]
        obtain ⟨d, rfl⟩ : ∃ d, x = a + 1 + d := ⟨x - (a + 1), by omega⟩
        rw [show a + 1 + d - (a + 1) = d by omega, show a + 1 + d - a = d + 1 by omega]
        simp
      · rw [if_neg hr, if_neg (by omega)]

/-- A byte outside a stored block reads as before, wherever the block lies. -/
theorem read_writeBlock_outside {m : Memory} (h : m.wf = true) (a x : Nat) (bs : List Byte)
    (out : x < a ∨ a + bs.length ≤ x) : (m.writeBlock a bs).read x = m.read x := by
  induction bs generalizing m a with
  | nil => rfl
  | cons b bs ih =>
    simp only [List.length_cons] at out
    rw [Memory.writeBlock, ih (write_wf h a b) (a + 1) (by omega), read_write h,
      if_neg (by omega)]

/-! ## The image of a ROM -/

theorem image_wfFrom (a : Nat) (bs : List Byte) (last : a + bs.length ≤ 4096) :
    Memory.wfFrom a (Memory.image a bs) = true := by
  induction bs generalizing a with
  | nil => rfl
  | cons b bs ih =>
    simp only [List.length_cons] at last
    have h := ih (a + 1) (by omega)
    unfold Memory.image
    split
    · exact wfFrom_mono h (by omega)
    · exact wfFrom_cons.2 ⟨by omega, by omega, ‹_›, h⟩

theorem image_wf (a : Nat) (bs : List Byte) (last : a + bs.length ≤ 4096) :
    (Memory.image a bs).wf = true := wfFrom_mono (image_wfFrom a bs last) (Nat.zero_le a)

/-- What memory reads after INIT (70_reset_and_hazards.md R303): the ROM's bytes, and FONT and
zeroes elsewhere. -/
theorem read_image (a x : Nat) (bs : List Byte) (last : a + bs.length ≤ 4096) :
    (Memory.image a bs).read x =
      if a ≤ x ∧ x < a + bs.length then bs.getD (x - a) 0 else Memory.background x := by
  induction bs generalizing a with
  | nil => simp [Memory.image, Memory.read, show ¬(a ≤ x ∧ x < a) by omega]
  | cons b bs ih =>
    simp only [List.length_cons] at last
    have h := ih (a + 1) (by omega)
    have hwf := image_wfFrom (a + 1) bs (by omega)
    simp only [List.length_cons]
    by_cases hx : x = a
    · subst hx
      rw [if_pos (by omega)]
      unfold Memory.image
      split
      · simp_all [read_of_lt hwf (Nat.lt_succ_self x)]
      · simp [Memory.read]
    · have step : (Memory.image a (b :: bs)).read x = (Memory.image (a + 1) bs).read x := by
        rw [Memory.image]
        split
        · rfl
        · rw [Memory.read, if_neg (Ne.symm hx)]
      rw [step, h]
      by_cases hr : a + 1 ≤ x ∧ x < a + 1 + bs.length
      · rw [if_pos hr, if_pos (by omega)]
        obtain ⟨d, rfl⟩ : ∃ d, x = a + 1 + d := ⟨x - (a + 1), by omega⟩
        rw [show a + 1 + d - (a + 1) = d by omega, show a + 1 + d - a = d + 1 by omega]
        simp
      · rw [if_neg hr, if_neg (by omega)]

/-! ## Equal memories are equal data -/

theorem wfFrom_ext {lo : Nat} {m m' : Memory} (h : Memory.wfFrom lo m = true)
    (h' : Memory.wfFrom lo m' = true) (eq : ∀ a, m.read a = m'.read a) : m = m' := by
  induction m generalizing lo m' with
  | nil =>
    cases m' with
    | nil => rfl
    | cons c m' =>
      obtain ⟨-, -, h3, -⟩ := wfFrom_cons.1 h'
      exact absurd (by simpa [Memory.read] using (eq c.1).symm) h3
  | cons c m ih =>
    obtain ⟨k, b⟩ := c
    obtain ⟨h1, h2, h3, h4⟩ := wfFrom_cons.1 h
    cases m' with
    | nil => exact absurd (by simpa [Memory.read] using eq k) h3
    | cons c' m' =>
      obtain ⟨k', b'⟩ := c'
      obtain ⟨h1', h2', h3', h4'⟩ := wfFrom_cons.1 h'
      have kk : k = k' := by
        rcases Nat.lt_trichotomy k k' with lt | e | gt
        · have := eq k
          rw [read_of_lt (wfFrom_cons.2 ⟨Nat.le_refl k', h2', h3', h4'⟩) lt] at this
          exact absurd (by simpa [Memory.read] using this) h3
        · exact e
        · have := eq k'
          rw [read_of_lt (wfFrom_cons.2 ⟨Nat.le_refl k, h2, h3, h4⟩) gt] at this
          exact absurd (by simpa [Memory.read] using this.symm) h3'
      subst kk
      have bb : b = b' := by simpa [Memory.read] using eq k
      subst bb
      refine congrArg ((k, b) :: ·) (ih h4 h4' fun a => ?_)
      by_cases ha : k = a
      · subst ha
        rw [read_of_lt h4 (Nat.lt_succ_self k), read_of_lt h4' (Nat.lt_succ_self k)]
      · simpa [Memory.read, ha] using eq a

/-- Canonical memories that read alike are the same data. -/
theorem wf_ext {m m' : Memory} (h : m.wf = true) (h' : m'.wf = true)
    (eq : ∀ a, m.read a = m'.read a) : m = m' := wfFrom_ext h h' eq

end Sys2Proof.Machine
end

