-- ==== Sys2Proof/Laws/State.lean ====
section
/-!
SUPPORT. One lemma per field per named update of the state, all by rfl (for the two conditional
updates by cases), so that no proof unfolds a record update.
-/

namespace Sys2Proof.Machine

variable (s : State)

/-! ### `setReg` -/

@[simp] theorem setReg_v (x : Reg) (b : Byte) : (s.setReg x b).v = s.v.set x.val b := rfl
@[simp] theorem setReg_i (x : Reg) (b : Byte) : (s.setReg x b).i = s.i := rfl
@[simp] theorem setReg_pc (x : Reg) (b : Byte) : (s.setReg x b).pc = s.pc := rfl
@[simp] theorem setReg_sp (x : Reg) (b : Byte) : (s.setReg x b).sp = s.sp := rfl
@[simp] theorem setReg_stack (x : Reg) (b : Byte) : (s.setReg x b).stack = s.stack := rfl
@[simp] theorem setReg_dt (x : Reg) (b : Byte) : (s.setReg x b).dt = s.dt := rfl
@[simp] theorem setReg_st (x : Reg) (b : Byte) : (s.setReg x b).st = s.st := rfl
@[simp] theorem setReg_mem (x : Reg) (b : Byte) : (s.setReg x b).mem = s.mem := rfl
@[simp] theorem setReg_fb (x : Reg) (b : Byte) : (s.setReg x b).fb = s.fb := rfl
@[simp] theorem setReg_key (x : Reg) (b : Byte) : (s.setReg x b).key = s.key := rfl
@[simp] theorem setReg_mode (x : Reg) (b : Byte) : (s.setReg x b).mode = s.mode := rfl
@[simp] theorem setReg_fault (x : Reg) (b : Byte) : (s.setReg x b).fault = s.fault := rfl
@[simp] theorem setReg_cfg (x : Reg) (b : Byte) : (s.setReg x b).cfg = s.cfg := rfl
@[simp] theorem setReg_romimg (x : Reg) (b : Byte) : (s.setReg x b).romimg = s.romimg := rfl
@[simp] theorem setReg_draws (x : Reg) (b : Byte) : (s.setReg x b).draws = s.draws := rfl
@[simp] theorem setReg_reply (x : Reg) (b : Byte) : (s.setReg x b).reply = s.reply := rfl
@[simp] theorem setReg_pending (x : Reg) (b : Byte) : (s.setReg x b).pending = s.pending := rfl
@[simp] theorem setReg_keyDown (x : Reg) (b : Byte) (y : Reg) : (s.setReg x b).keyDown y = s.keyDown y := rfl

/-! ### `setRegFlag` -/

@[simp] theorem setRegFlag_v (x : Reg) (b : Byte) (c : Bool) : (s.setRegFlag x b c).v = (s.v.set x.val b).set 15 (flagByte c) := rfl
@[simp] theorem setRegFlag_i (x : Reg) (b : Byte) (c : Bool) : (s.setRegFlag x b c).i = s.i := rfl
@[simp] theorem setRegFlag_pc (x : Reg) (b : Byte) (c : Bool) : (s.setRegFlag x b c).pc = s.pc := rfl
@[simp] theorem setRegFlag_sp (x : Reg) (b : Byte) (c : Bool) : (s.setRegFlag x b c).sp = s.sp := rfl
@[simp] theorem setRegFlag_stack (x : Reg) (b : Byte) (c : Bool) : (s.setRegFlag x b c).stack = s.stack := rfl
@[simp] theorem setRegFlag_dt (x : Reg) (b : Byte) (c : Bool) : (s.setRegFlag x b c).dt = s.dt := rfl
@[simp] theorem setRegFlag_st (x : Reg) (b : Byte) (c : Bool) : (s.setRegFlag x b c).st = s.st := rfl
@[simp] theorem setRegFlag_mem (x : Reg) (b : Byte) (c : Bool) : (s.setRegFlag x b c).mem = s.mem := rfl
@[simp] theorem setRegFlag_fb (x : Reg) (b : Byte) (c : Bool) : (s.setRegFlag x b c).fb = s.fb := rfl
@[simp] theorem setRegFlag_key (x : Reg) (b : Byte) (c : Bool) : (s.setRegFlag x b c).key = s.key := rfl
@[simp] theorem setRegFlag_mode (x : Reg) (b : Byte) (c : Bool) : (s.setRegFlag x b c).mode = s.mode := rfl
@[simp] theorem setRegFlag_fault (x : Reg) (b : Byte) (c : Bool) : (s.setRegFlag x b c).fault = s.fault := rfl
@[simp] theorem setRegFlag_cfg (x : Reg) (b : Byte) (c : Bool) : (s.setRegFlag x b c).cfg = s.cfg := rfl
@[simp] theorem setRegFlag_romimg (x : Reg) (b : Byte) (c : Bool) : (s.setRegFlag x b c).romimg = s.romimg := rfl
@[simp] theorem setRegFlag_draws (x : Reg) (b : Byte) (c : Bool) : (s.setRegFlag x b c).draws = s.draws := rfl
@[simp] theorem setRegFlag_reply (x : Reg) (b : Byte) (c : Bool) : (s.setRegFlag x b c).reply = s.reply := rfl
@[simp] theorem setRegFlag_pending (x : Reg) (b : Byte) (c : Bool) : (s.setRegFlag x b c).pending = s.pending := rfl
@[simp] theorem setRegFlag_keyDown (x : Reg) (b : Byte) (c : Bool) (y : Reg) : (s.setRegFlag x b c).keyDown y = s.keyDown y := rfl

/-! ### `loadRegs` -/

@[simp] theorem loadRegs_v (bs : List Byte) : (s.loadRegs bs).v = fillRegs s.v 0 bs := rfl
@[simp] theorem loadRegs_i (bs : List Byte) : (s.loadRegs bs).i = s.i := rfl
@[simp] theorem loadRegs_pc (bs : List Byte) : (s.loadRegs bs).pc = s.pc := rfl
@[simp] theorem loadRegs_sp (bs : List Byte) : (s.loadRegs bs).sp = s.sp := rfl
@[simp] theorem loadRegs_stack (bs : List Byte) : (s.loadRegs bs).stack = s.stack := rfl
@[simp] theorem loadRegs_dt (bs : List Byte) : (s.loadRegs bs).dt = s.dt := rfl
@[simp] theorem loadRegs_st (bs : List Byte) : (s.loadRegs bs).st = s.st := rfl
@[simp] theorem loadRegs_mem (bs : List Byte) : (s.loadRegs bs).mem = s.mem := rfl
@[simp] theorem loadRegs_fb (bs : List Byte) : (s.loadRegs bs).fb = s.fb := rfl
@[simp] theorem loadRegs_key (bs : List Byte) : (s.loadRegs bs).key = s.key := rfl
@[simp] theorem loadRegs_mode (bs : List Byte) : (s.loadRegs bs).mode = s.mode := rfl
@[simp] theorem loadRegs_fault (bs : List Byte) : (s.loadRegs bs).fault = s.fault := rfl
@[simp] theorem loadRegs_cfg (bs : List Byte) : (s.loadRegs bs).cfg = s.cfg := rfl
@[simp] theorem loadRegs_romimg (bs : List Byte) : (s.loadRegs bs).romimg = s.romimg := rfl
@[simp] theorem loadRegs_draws (bs : List Byte) : (s.loadRegs bs).draws = s.draws := rfl
@[simp] theorem loadRegs_reply (bs : List Byte) : (s.loadRegs bs).reply = s.reply := rfl
@[simp] theorem loadRegs_pending (bs : List Byte) : (s.loadRegs bs).pending = s.pending := rfl
@[simp] theorem loadRegs_keyDown (bs : List Byte) (y : Reg) : (s.loadRegs bs).keyDown y = s.keyDown y := rfl

/-! ### `setI` -/

@[simp] theorem setI_v (w : Word) : (s.setI w).v = s.v := rfl
@[simp] theorem setI_i (w : Word) : (s.setI w).i = w := rfl
@[simp] theorem setI_pc (w : Word) : (s.setI w).pc = s.pc := rfl
@[simp] theorem setI_sp (w : Word) : (s.setI w).sp = s.sp := rfl
@[simp] theorem setI_stack (w : Word) : (s.setI w).stack = s.stack := rfl
@[simp] theorem setI_dt (w : Word) : (s.setI w).dt = s.dt := rfl
@[simp] theorem setI_st (w : Word) : (s.setI w).st = s.st := rfl
@[simp] theorem setI_mem (w : Word) : (s.setI w).mem = s.mem := rfl
@[simp] theorem setI_fb (w : Word) : (s.setI w).fb = s.fb := rfl
@[simp] theorem setI_key (w : Word) : (s.setI w).key = s.key := rfl
@[simp] theorem setI_mode (w : Word) : (s.setI w).mode = s.mode := rfl
@[simp] theorem setI_fault (w : Word) : (s.setI w).fault = s.fault := rfl
@[simp] theorem setI_cfg (w : Word) : (s.setI w).cfg = s.cfg := rfl
@[simp] theorem setI_romimg (w : Word) : (s.setI w).romimg = s.romimg := rfl
@[simp] theorem setI_draws (w : Word) : (s.setI w).draws = s.draws := rfl
@[simp] theorem setI_reply (w : Word) : (s.setI w).reply = s.reply := rfl
@[simp] theorem setI_pending (w : Word) : (s.setI w).pending = s.pending := rfl
@[simp] theorem setI_reg (w : Word) (y : Reg) : (s.setI w).reg y = s.reg y := rfl
@[simp] theorem setI_keyDown (w : Word) (y : Reg) : (s.setI w).keyDown y = s.keyDown y := rfl

/-! ### `setPc` -/

@[simp] theorem setPc_v (w : Word) : (s.setPc w).v = s.v := rfl
@[simp] theorem setPc_i (w : Word) : (s.setPc w).i = s.i := rfl
@[simp] theorem setPc_pc (w : Word) : (s.setPc w).pc = w := rfl
@[simp] theorem setPc_sp (w : Word) : (s.setPc w).sp = s.sp := rfl
@[simp] theorem setPc_stack (w : Word) : (s.setPc w).stack = s.stack := rfl
@[simp] theorem setPc_dt (w : Word) : (s.setPc w).dt = s.dt := rfl
@[simp] theorem setPc_st (w : Word) : (s.setPc w).st = s.st := rfl
@[simp] theorem setPc_mem (w : Word) : (s.setPc w).mem = s.mem := rfl
@[simp] theorem setPc_fb (w : Word) : (s.setPc w).fb = s.fb := rfl
@[simp] theorem setPc_key (w : Word) : (s.setPc w).key = s.key := rfl
@[simp] theorem setPc_mode (w : Word) : (s.setPc w).mode = s.mode := rfl
@[simp] theorem setPc_fault (w : Word) : (s.setPc w).fault = s.fault := rfl
@[simp] theorem setPc_cfg (w : Word) : (s.setPc w).cfg = s.cfg := rfl
@[simp] theorem setPc_romimg (w : Word) : (s.setPc w).romimg = s.romimg := rfl
@[simp] theorem setPc_draws (w : Word) : (s.setPc w).draws = s.draws := rfl
@[simp] theorem setPc_reply (w : Word) : (s.setPc w).reply = s.reply := rfl
@[simp] theorem setPc_pending (w : Word) : (s.setPc w).pending = s.pending := rfl
@[simp] theorem setPc_reg (w : Word) (y : Reg) : (s.setPc w).reg y = s.reg y := rfl
@[simp] theorem setPc_keyDown (w : Word) (y : Reg) : (s.setPc w).keyDown y = s.keyDown y := rfl

/-! ### `setDt` -/

@[simp] theorem setDt_v (b : Byte) : (s.setDt b).v = s.v := rfl
@[simp] theorem setDt_i (b : Byte) : (s.setDt b).i = s.i := rfl
@[simp] theorem setDt_pc (b : Byte) : (s.setDt b).pc = s.pc := rfl
@[simp] theorem setDt_sp (b : Byte) : (s.setDt b).sp = s.sp := rfl
@[simp] theorem setDt_stack (b : Byte) : (s.setDt b).stack = s.stack := rfl
@[simp] theorem setDt_dt (b : Byte) : (s.setDt b).dt = b := rfl
@[simp] theorem setDt_st (b : Byte) : (s.setDt b).st = s.st := rfl
@[simp] theorem setDt_mem (b : Byte) : (s.setDt b).mem = s.mem := rfl
@[simp] theorem setDt_fb (b : Byte) : (s.setDt b).fb = s.fb := rfl
@[simp] theorem setDt_key (b : Byte) : (s.setDt b).key = s.key := rfl
@[simp] theorem setDt_mode (b : Byte) : (s.setDt b).mode = s.mode := rfl
@[simp] theorem setDt_fault (b : Byte) : (s.setDt b).fault = s.fault := rfl
@[simp] theorem setDt_cfg (b : Byte) : (s.setDt b).cfg = s.cfg := rfl
@[simp] theorem setDt_romimg (b : Byte) : (s.setDt b).romimg = s.romimg := rfl
@[simp] theorem setDt_draws (b : Byte) : (s.setDt b).draws = s.draws := rfl
@[simp] theorem setDt_reply (b : Byte) : (s.setDt b).reply = s.reply := rfl
@[simp] theorem setDt_pending (b : Byte) : (s.setDt b).pending = s.pending := rfl
@[simp] theorem setDt_reg (b : Byte) (y : Reg) : (s.setDt b).reg y = s.reg y := rfl
@[simp] theorem setDt_keyDown (b : Byte) (y : Reg) : (s.setDt b).keyDown y = s.keyDown y := rfl

/-! ### `setSt` -/

@[simp] theorem setSt_v (b : Byte) : (s.setSt b).v = s.v := rfl
@[simp] theorem setSt_i (b : Byte) : (s.setSt b).i = s.i := rfl
@[simp] theorem setSt_pc (b : Byte) : (s.setSt b).pc = s.pc := rfl
@[simp] theorem setSt_sp (b : Byte) : (s.setSt b).sp = s.sp := rfl
@[simp] theorem setSt_stack (b : Byte) : (s.setSt b).stack = s.stack := rfl
@[simp] theorem setSt_dt (b : Byte) : (s.setSt b).dt = s.dt := rfl
@[simp] theorem setSt_st (b : Byte) : (s.setSt b).st = b := rfl
@[simp] theorem setSt_mem (b : Byte) : (s.setSt b).mem = s.mem := rfl
@[simp] theorem setSt_fb (b : Byte) : (s.setSt b).fb = s.fb := rfl
@[simp] theorem setSt_key (b : Byte) : (s.setSt b).key = s.key := rfl
@[simp] theorem setSt_mode (b : Byte) : (s.setSt b).mode = s.mode := rfl
@[simp] theorem setSt_fault (b : Byte) : (s.setSt b).fault = s.fault := rfl
@[simp] theorem setSt_cfg (b : Byte) : (s.setSt b).cfg = s.cfg := rfl
@[simp] theorem setSt_romimg (b : Byte) : (s.setSt b).romimg = s.romimg := rfl
@[simp] theorem setSt_draws (b : Byte) : (s.setSt b).draws = s.draws := rfl
@[simp] theorem setSt_reply (b : Byte) : (s.setSt b).reply = s.reply := rfl
@[simp] theorem setSt_pending (b : Byte) : (s.setSt b).pending = s.pending := rfl
@[simp] theorem setSt_reg (b : Byte) (y : Reg) : (s.setSt b).reg y = s.reg y := rfl
@[simp] theorem setSt_keyDown (b : Byte) (y : Reg) : (s.setSt b).keyDown y = s.keyDown y := rfl

/-! ### `setMode` -/

@[simp] theorem setMode_v (m : Mode) : (s.setMode m).v = s.v := rfl
@[simp] theorem setMode_i (m : Mode) : (s.setMode m).i = s.i := rfl
@[simp] theorem setMode_pc (m : Mode) : (s.setMode m).pc = s.pc := rfl
@[simp] theorem setMode_sp (m : Mode) : (s.setMode m).sp = s.sp := rfl
@[simp] theorem setMode_stack (m : Mode) : (s.setMode m).stack = s.stack := rfl
@[simp] theorem setMode_dt (m : Mode) : (s.setMode m).dt = s.dt := rfl
@[simp] theorem setMode_st (m : Mode) : (s.setMode m).st = s.st := rfl
@[simp] theorem setMode_mem (m : Mode) : (s.setMode m).mem = s.mem := rfl
@[simp] theorem setMode_fb (m : Mode) : (s.setMode m).fb = s.fb := rfl
@[simp] theorem setMode_key (m : Mode) : (s.setMode m).key = s.key := rfl
@[simp] theorem setMode_mode (m : Mode) : (s.setMode m).mode = m := rfl
@[simp] theorem setMode_fault (m : Mode) : (s.setMode m).fault = s.fault := rfl
@[simp] theorem setMode_cfg (m : Mode) : (s.setMode m).cfg = s.cfg := rfl
@[simp] theorem setMode_romimg (m : Mode) : (s.setMode m).romimg = s.romimg := rfl
@[simp] theorem setMode_draws (m : Mode) : (s.setMode m).draws = s.draws := rfl
@[simp] theorem setMode_reply (m : Mode) : (s.setMode m).reply = s.reply := rfl
@[simp] theorem setMode_pending (m : Mode) : (s.setMode m).pending = s.pending := rfl
@[simp] theorem setMode_reg (m : Mode) (y : Reg) : (s.setMode m).reg y = s.reg y := rfl
@[simp] theorem setMode_keyDown (m : Mode) (y : Reg) : (s.setMode m).keyDown y = s.keyDown y := rfl

/-! ### `setMem` -/

@[simp] theorem setMem_v (m : Memory) : (s.setMem m).v = s.v := rfl
@[simp] theorem setMem_i (m : Memory) : (s.setMem m).i = s.i := rfl
@[simp] theorem setMem_pc (m : Memory) : (s.setMem m).pc = s.pc := rfl
@[simp] theorem setMem_sp (m : Memory) : (s.setMem m).sp = s.sp := rfl
@[simp] theorem setMem_stack (m : Memory) : (s.setMem m).stack = s.stack := rfl
@[simp] theorem setMem_dt (m : Memory) : (s.setMem m).dt = s.dt := rfl
@[simp] theorem setMem_st (m : Memory) : (s.setMem m).st = s.st := rfl
@[simp] theorem setMem_mem (m : Memory) : (s.setMem m).mem = m := rfl
@[simp] theorem setMem_fb (m : Memory) : (s.setMem m).fb = s.fb := rfl
@[simp] theorem setMem_key (m : Memory) : (s.setMem m).key = s.key := rfl
@[simp] theorem setMem_mode (m : Memory) : (s.setMem m).mode = s.mode := rfl
@[simp] theorem setMem_fault (m : Memory) : (s.setMem m).fault = s.fault := rfl
@[simp] theorem setMem_cfg (m : Memory) : (s.setMem m).cfg = s.cfg := rfl
@[simp] theorem setMem_romimg (m : Memory) : (s.setMem m).romimg = s.romimg := rfl
@[simp] theorem setMem_draws (m : Memory) : (s.setMem m).draws = s.draws := rfl
@[simp] theorem setMem_reply (m : Memory) : (s.setMem m).reply = s.reply := rfl
@[simp] theorem setMem_pending (m : Memory) : (s.setMem m).pending = s.pending := rfl
@[simp] theorem setMem_reg (m : Memory) (y : Reg) : (s.setMem m).reg y = s.reg y := rfl
@[simp] theorem setMem_keyDown (m : Memory) (y : Reg) : (s.setMem m).keyDown y = s.keyDown y := rfl

/-! ### `setFb` -/

@[simp] theorem setFb_v (d : Display) : (s.setFb d).v = s.v := rfl
@[simp] theorem setFb_i (d : Display) : (s.setFb d).i = s.i := rfl
@[simp] theorem setFb_pc (d : Display) : (s.setFb d).pc = s.pc := rfl
@[simp] theorem setFb_sp (d : Display) : (s.setFb d).sp = s.sp := rfl
@[simp] theorem setFb_stack (d : Display) : (s.setFb d).stack = s.stack := rfl
@[simp] theorem setFb_dt (d : Display) : (s.setFb d).dt = s.dt := rfl
@[simp] theorem setFb_st (d : Display) : (s.setFb d).st = s.st := rfl
@[simp] theorem setFb_mem (d : Display) : (s.setFb d).mem = s.mem := rfl
@[simp] theorem setFb_fb (d : Display) : (s.setFb d).fb = d := rfl
@[simp] theorem setFb_key (d : Display) : (s.setFb d).key = s.key := rfl
@[simp] theorem setFb_mode (d : Display) : (s.setFb d).mode = s.mode := rfl
@[simp] theorem setFb_fault (d : Display) : (s.setFb d).fault = s.fault := rfl
@[simp] theorem setFb_cfg (d : Display) : (s.setFb d).cfg = s.cfg := rfl
@[simp] theorem setFb_romimg (d : Display) : (s.setFb d).romimg = s.romimg := rfl
@[simp] theorem setFb_draws (d : Display) : (s.setFb d).draws = s.draws := rfl
@[simp] theorem setFb_reply (d : Display) : (s.setFb d).reply = s.reply := rfl
@[simp] theorem setFb_pending (d : Display) : (s.setFb d).pending = s.pending := rfl
@[simp] theorem setFb_reg (d : Display) (y : Reg) : (s.setFb d).reg y = s.reg y := rfl
@[simp] theorem setFb_keyDown (d : Display) (y : Reg) : (s.setFb d).keyDown y = s.keyDown y := rfl

/-! ### `answer` -/

@[simp] theorem answer_v (r : Reply) : (s.answer r).v = s.v := rfl
@[simp] theorem answer_i (r : Reply) : (s.answer r).i = s.i := rfl
@[simp] theorem answer_pc (r : Reply) : (s.answer r).pc = s.pc := rfl
@[simp] theorem answer_sp (r : Reply) : (s.answer r).sp = s.sp := rfl
@[simp] theorem answer_stack (r : Reply) : (s.answer r).stack = s.stack := rfl
@[simp] theorem answer_dt (r : Reply) : (s.answer r).dt = s.dt := rfl
@[simp] theorem answer_st (r : Reply) : (s.answer r).st = s.st := rfl
@[simp] theorem answer_mem (r : Reply) : (s.answer r).mem = s.mem := rfl
@[simp] theorem answer_fb (r : Reply) : (s.answer r).fb = s.fb := rfl
@[simp] theorem answer_key (r : Reply) : (s.answer r).key = s.key := rfl
@[simp] theorem answer_mode (r : Reply) : (s.answer r).mode = s.mode := rfl
@[simp] theorem answer_fault (r : Reply) : (s.answer r).fault = s.fault := rfl
@[simp] theorem answer_cfg (r : Reply) : (s.answer r).cfg = s.cfg := rfl
@[simp] theorem answer_romimg (r : Reply) : (s.answer r).romimg = s.romimg := rfl
@[simp] theorem answer_draws (r : Reply) : (s.answer r).draws = s.draws := rfl
@[simp] theorem answer_reply (r : Reply) : (s.answer r).reply = some r := rfl
@[simp] theorem answer_pending (r : Reply) : (s.answer r).pending = s.pending := rfl
@[simp] theorem answer_reg (r : Reply) (y : Reg) : (s.answer r).reg y = s.reg y := rfl
@[simp] theorem answer_keyDown (r : Reply) (y : Reg) : (s.answer r).keyDown y = s.keyDown y := rfl

/-! ### `noAnswer` -/

@[simp] theorem noAnswer_v : (s.noAnswer).v = s.v := rfl
@[simp] theorem noAnswer_i : (s.noAnswer).i = s.i := rfl
@[simp] theorem noAnswer_pc : (s.noAnswer).pc = s.pc := rfl
@[simp] theorem noAnswer_sp : (s.noAnswer).sp = s.sp := rfl
@[simp] theorem noAnswer_stack : (s.noAnswer).stack = s.stack := rfl
@[simp] theorem noAnswer_dt : (s.noAnswer).dt = s.dt := rfl
@[simp] theorem noAnswer_st : (s.noAnswer).st = s.st := rfl
@[simp] theorem noAnswer_mem : (s.noAnswer).mem = s.mem := rfl
@[simp] theorem noAnswer_fb : (s.noAnswer).fb = s.fb := rfl
@[simp] theorem noAnswer_key : (s.noAnswer).key = s.key := rfl
@[simp] theorem noAnswer_mode : (s.noAnswer).mode = s.mode := rfl
@[simp] theorem noAnswer_fault : (s.noAnswer).fault = s.fault := rfl
@[simp] theorem noAnswer_cfg : (s.noAnswer).cfg = s.cfg := rfl
@[simp] theorem noAnswer_romimg : (s.noAnswer).romimg = s.romimg := rfl
@[simp] theorem noAnswer_draws : (s.noAnswer).draws = s.draws := rfl
@[simp] theorem noAnswer_reply : (s.noAnswer).reply = none := rfl
@[simp] theorem noAnswer_pending : (s.noAnswer).pending = s.pending := rfl
@[simp] theorem noAnswer_reg (y : Reg) : (s.noAnswer).reg y = s.reg y := rfl
@[simp] theorem noAnswer_keyDown (y : Reg) : (s.noAnswer).keyDown y = s.keyDown y := rfl

/-! ### `raise` -/

@[simp] theorem raise_v (k : FatalKind) : (s.raise k).v = s.v := rfl
@[simp] theorem raise_i (k : FatalKind) : (s.raise k).i = s.i := rfl
@[simp] theorem raise_pc (k : FatalKind) : (s.raise k).pc = s.pc := rfl
@[simp] theorem raise_sp (k : FatalKind) : (s.raise k).sp = s.sp := rfl
@[simp] theorem raise_stack (k : FatalKind) : (s.raise k).stack = s.stack := rfl
@[simp] theorem raise_dt (k : FatalKind) : (s.raise k).dt = s.dt := rfl
@[simp] theorem raise_st (k : FatalKind) : (s.raise k).st = s.st := rfl
@[simp] theorem raise_mem (k : FatalKind) : (s.raise k).mem = s.mem := rfl
@[simp] theorem raise_fb (k : FatalKind) : (s.raise k).fb = s.fb := rfl
@[simp] theorem raise_key (k : FatalKind) : (s.raise k).key = s.key := rfl
@[simp] theorem raise_mode (k : FatalKind) : (s.raise k).mode = s.mode := rfl
@[simp] theorem raise_fault (k : FatalKind) : (s.raise k).fault = some k := rfl
@[simp] theorem raise_cfg (k : FatalKind) : (s.raise k).cfg = s.cfg := rfl
@[simp] theorem raise_romimg (k : FatalKind) : (s.raise k).romimg = s.romimg := rfl
@[simp] theorem raise_draws (k : FatalKind) : (s.raise k).draws = s.draws := rfl
@[simp] theorem raise_reply (k : FatalKind) : (s.raise k).reply = some (.error k.kind) := rfl
@[simp] theorem raise_pending (k : FatalKind) : (s.raise k).pending = s.pending := rfl
@[simp] theorem raise_reg (k : FatalKind) (y : Reg) : (s.raise k).reg y = s.reg y := rfl
@[simp] theorem raise_keyDown (k : FatalKind) (y : Reg) : (s.raise k).keyDown y = s.keyDown y := rfl

/-! ### `setKey` -/

@[simp] theorem setKey_v (k : Reg) (p : Bool) : (setKey k p s).v = s.v := rfl
@[simp] theorem setKey_i (k : Reg) (p : Bool) : (setKey k p s).i = s.i := rfl
@[simp] theorem setKey_pc (k : Reg) (p : Bool) : (setKey k p s).pc = s.pc := rfl
@[simp] theorem setKey_sp (k : Reg) (p : Bool) : (setKey k p s).sp = s.sp := rfl
@[simp] theorem setKey_stack (k : Reg) (p : Bool) : (setKey k p s).stack = s.stack := rfl
@[simp] theorem setKey_dt (k : Reg) (p : Bool) : (setKey k p s).dt = s.dt := rfl
@[simp] theorem setKey_st (k : Reg) (p : Bool) : (setKey k p s).st = s.st := rfl
@[simp] theorem setKey_mem (k : Reg) (p : Bool) : (setKey k p s).mem = s.mem := rfl
@[simp] theorem setKey_fb (k : Reg) (p : Bool) : (setKey k p s).fb = s.fb := rfl
@[simp] theorem setKey_key (k : Reg) (p : Bool) : (setKey k p s).key = s.key.set k.val p := rfl
@[simp] theorem setKey_mode (k : Reg) (p : Bool) : (setKey k p s).mode = s.mode := rfl
@[simp] theorem setKey_fault (k : Reg) (p : Bool) : (setKey k p s).fault = s.fault := rfl
@[simp] theorem setKey_cfg (k : Reg) (p : Bool) : (setKey k p s).cfg = s.cfg := rfl
@[simp] theorem setKey_romimg (k : Reg) (p : Bool) : (setKey k p s).romimg = s.romimg := rfl
@[simp] theorem setKey_draws (k : Reg) (p : Bool) : (setKey k p s).draws = s.draws := rfl
@[simp] theorem setKey_reply (k : Reg) (p : Bool) : (setKey k p s).reply = s.reply := rfl
@[simp] theorem setKey_pending (k : Reg) (p : Bool) : (setKey k p s).pending = s.pending := rfl
@[simp] theorem setKey_reg (k : Reg) (p : Bool) (y : Reg) : (setKey k p s).reg y = s.reg y := rfl

/-! ### `tick` -/

@[simp] theorem tick_v : (tick s).v = s.v := rfl
@[simp] theorem tick_i : (tick s).i = s.i := rfl
@[simp] theorem tick_pc : (tick s).pc = s.pc := rfl
@[simp] theorem tick_sp : (tick s).sp = s.sp := rfl
@[simp] theorem tick_stack : (tick s).stack = s.stack := rfl
@[simp] theorem tick_dt : (tick s).dt = timerTick s.dt := rfl
@[simp] theorem tick_st : (tick s).st = timerTick s.st := rfl
@[simp] theorem tick_mem : (tick s).mem = s.mem := rfl
@[simp] theorem tick_fb : (tick s).fb = s.fb := rfl
@[simp] theorem tick_key : (tick s).key = s.key := rfl
@[simp] theorem tick_mode : (tick s).mode = s.mode := rfl
@[simp] theorem tick_fault : (tick s).fault = s.fault := rfl
@[simp] theorem tick_cfg : (tick s).cfg = s.cfg := rfl
@[simp] theorem tick_romimg : (tick s).romimg = s.romimg := rfl
@[simp] theorem tick_draws : (tick s).draws = s.draws := rfl
@[simp] theorem tick_reply : (tick s).reply = s.reply := rfl
@[simp] theorem tick_pending : (tick s).pending = s.pending := rfl
@[simp] theorem tick_reg (y : Reg) : (tick s).reg y = s.reg y := rfl
@[simp] theorem tick_keyDown (y : Reg) : (tick s).keyDown y = s.keyDown y := rfl

/-! ### `init` -/

@[simp] theorem init_v (r : List Byte) : (s.init r).v = Vector.replicate 16 0 := rfl
@[simp] theorem init_i (r : List Byte) : (s.init r).i = 0 := rfl
@[simp] theorem init_pc (r : List Byte) : (s.init r).pc = 0x200 := rfl
@[simp] theorem init_sp (r : List Byte) : (s.init r).sp = 0 := rfl
@[simp] theorem init_stack (r : List Byte) : (s.init r).stack = Vector.replicate 16 0 := rfl
@[simp] theorem init_dt (r : List Byte) : (s.init r).dt = 0 := rfl
@[simp] theorem init_st (r : List Byte) : (s.init r).st = 0 := rfl
@[simp] theorem init_mem (r : List Byte) : (s.init r).mem = Memory.image Config.progBase r := rfl
@[simp] theorem init_fb (r : List Byte) : (s.init r).fb = Display.clear := rfl
@[simp] theorem init_key (r : List Byte) : (s.init r).key = s.key := rfl
@[simp] theorem init_mode (r : List Byte) : (s.init r).mode = .running := rfl
@[simp] theorem init_fault (r : List Byte) : (s.init r).fault = none := rfl
@[simp] theorem init_cfg (r : List Byte) : (s.init r).cfg = s.cfg := rfl
@[simp] theorem init_romimg (r : List Byte) : (s.init r).romimg = s.romimg := rfl
@[simp] theorem init_draws (r : List Byte) : (s.init r).draws = s.draws := rfl
@[simp] theorem init_reply (r : List Byte) : (s.init r).reply = s.reply := rfl
@[simp] theorem init_pending (r : List Byte) : (s.init r).pending = s.pending := rfl
@[simp] theorem init_keyDown (r : List Byte) (y : Reg) : (s.init r).keyDown y = s.keyDown y := rfl

/-! ### `skipIf` -/

@[simp] theorem skipIf_v (c : Bool) : (s.skipIf c).v = s.v := by
  unfold State.skipIf; split <;> rfl
@[simp] theorem skipIf_i (c : Bool) : (s.skipIf c).i = s.i := by
  unfold State.skipIf; split <;> rfl
@[simp] theorem skipIf_pc (c : Bool) : (s.skipIf c).pc = if c then s.pc + 2 else s.pc := by
  unfold State.skipIf; split <;> rfl
@[simp] theorem skipIf_sp (c : Bool) : (s.skipIf c).sp = s.sp := by
  unfold State.skipIf; split <;> rfl
@[simp] theorem skipIf_stack (c : Bool) : (s.skipIf c).stack = s.stack := by
  unfold State.skipIf; split <;> rfl
@[simp] theorem skipIf_dt (c : Bool) : (s.skipIf c).dt = s.dt := by
  unfold State.skipIf; split <;> rfl
@[simp] theorem skipIf_st (c : Bool) : (s.skipIf c).st = s.st := by
  unfold State.skipIf; split <;> rfl
@[simp] theorem skipIf_mem (c : Bool) : (s.skipIf c).mem = s.mem := by
  unfold State.skipIf; split <;> rfl
@[simp] theorem skipIf_fb (c : Bool) : (s.skipIf c).fb = s.fb := by
  unfold State.skipIf; split <;> rfl
@[simp] theorem skipIf_key (c : Bool) : (s.skipIf c).key = s.key := by
  unfold State.skipIf; split <;> rfl
@[simp] theorem skipIf_mode (c : Bool) : (s.skipIf c).mode = s.mode := by
  unfold State.skipIf; split <;> rfl
@[simp] theorem skipIf_fault (c : Bool) : (s.skipIf c).fault = s.fault := by
  unfold State.skipIf; split <;> rfl
@[simp] theorem skipIf_cfg (c : Bool) : (s.skipIf c).cfg = s.cfg := by
  unfold State.skipIf; split <;> rfl
@[simp] theorem skipIf_romimg (c : Bool) : (s.skipIf c).romimg = s.romimg := by
  unfold State.skipIf; split <;> rfl
@[simp] theorem skipIf_draws (c : Bool) : (s.skipIf c).draws = s.draws := by
  unfold State.skipIf; split <;> rfl
@[simp] theorem skipIf_reply (c : Bool) : (s.skipIf c).reply = s.reply := by
  unfold State.skipIf; split <;> rfl
@[simp] theorem skipIf_pending (c : Bool) : (s.skipIf c).pending = s.pending := by
  unfold State.skipIf; split <;> rfl
@[simp] theorem skipIf_reg (c : Bool) (y : Reg) : (s.skipIf c).reg y = s.reg y := by
  unfold State.skipIf; split <;> rfl

/-! ### `advanceIndex` -/

@[simp] theorem advanceIndex_v (n : Nat) : (s.advanceIndex n).v = s.v := by
  unfold State.advanceIndex; split <;> rfl
@[simp] theorem advanceIndex_i (n : Nat) : (s.advanceIndex n).i = if s.cfg.indexInc then BitVec.ofNat 16 (s.i.toNat + n) else s.i := by
  unfold State.advanceIndex; split <;> rfl
@[simp] theorem advanceIndex_pc (n : Nat) : (s.advanceIndex n).pc = s.pc := by
  unfold State.advanceIndex; split <;> rfl
@[simp] theorem advanceIndex_sp (n : Nat) : (s.advanceIndex n).sp = s.sp := by
  unfold State.advanceIndex; split <;> rfl
@[simp] theorem advanceIndex_stack (n : Nat) : (s.advanceIndex n).stack = s.stack := by
  unfold State.advanceIndex; split <;> rfl
@[simp] theorem advanceIndex_dt (n : Nat) : (s.advanceIndex n).dt = s.dt := by
  unfold State.advanceIndex; split <;> rfl
@[simp] theorem advanceIndex_st (n : Nat) : (s.advanceIndex n).st = s.st := by
  unfold State.advanceIndex; split <;> rfl
@[simp] theorem advanceIndex_mem (n : Nat) : (s.advanceIndex n).mem = s.mem := by
  unfold State.advanceIndex; split <;> rfl
@[simp] theorem advanceIndex_fb (n : Nat) : (s.advanceIndex n).fb = s.fb := by
  unfold State.advanceIndex; split <;> rfl
@[simp] theorem advanceIndex_key (n : Nat) : (s.advanceIndex n).key = s.key := by
  unfold State.advanceIndex; split <;> rfl
@[simp] theorem advanceIndex_mode (n : Nat) : (s.advanceIndex n).mode = s.mode := by
  unfold State.advanceIndex; split <;> rfl
@[simp] theorem advanceIndex_fault (n : Nat) : (s.advanceIndex n).fault = s.fault := by
  unfold State.advanceIndex; split <;> rfl
@[simp] theorem advanceIndex_cfg (n : Nat) : (s.advanceIndex n).cfg = s.cfg := by
  unfold State.advanceIndex; split <;> rfl
@[simp] theorem advanceIndex_romimg (n : Nat) : (s.advanceIndex n).romimg = s.romimg := by
  unfold State.advanceIndex; split <;> rfl
@[simp] theorem advanceIndex_draws (n : Nat) : (s.advanceIndex n).draws = s.draws := by
  unfold State.advanceIndex; split <;> rfl
@[simp] theorem advanceIndex_reply (n : Nat) : (s.advanceIndex n).reply = s.reply := by
  unfold State.advanceIndex; split <;> rfl
@[simp] theorem advanceIndex_pending (n : Nat) : (s.advanceIndex n).pending = s.pending := by
  unfold State.advanceIndex; split <;> rfl
@[simp] theorem advanceIndex_reg (n : Nat) (y : Reg) : (s.advanceIndex n).reg y = s.reg y := by
  unfold State.advanceIndex; split <;> rfl

end Sys2Proof.Machine
end

