-- ==== Sys2Proof/Laws/Registers.lean ====
section
/-!
SUPPORT. The laws of the register, stack, key and operand operations.
-/

namespace Sys2Proof.Machine

variable (s : State)

/-! ## Registers -/

@[simp] theorem reg_setReg (x y : Reg) (b : Byte) :
    (s.setReg x b).reg y = if y = x then b else s.reg y := by
  simp only [State.reg, setReg_v, Vector.getElem_set, Fin.ext_iff, eq_comm]

/-- The flag stands when the result's register is VF (44_alu.md R170). -/
@[simp] theorem reg_setRegFlag (x y : Reg) (b : Byte) (c : Bool) :
    (s.setRegFlag x b c).reg y = if y = 15 then flagByte c else if y = x then b else s.reg y := by
  rw [State.setRegFlag, reg_setReg, reg_setReg]

theorem fillRegs_getElem (v : Vector Byte 16) (r : Nat) (bs : List Byte) (j : Nat) (h : j < 16) :
    (fillRegs v r bs)[j] = if r ≤ j ∧ j < r + bs.length then bs.getD (j - r) 0 else v[j] := by
  induction bs generalizing v r with
  | nil => simp [fillRegs, show ¬(r ≤ j ∧ j < r) by omega]
  | cons b bs ih =>
    rw [fillRegs, ih, Vector.getElem_setIfInBounds]
    simp only [List.length_cons]
    by_cases hj : r = j
    · subst hj
      rw [if_neg (by omega), if_pos rfl, if_pos (by omega)]
      simp
    · rw [if_neg hj]
      by_cases hr : r + 1 ≤ j ∧ j < r + 1 + bs.length
      · rw [if_pos hr, if_pos (by omega)]
        obtain ⟨d, rfl⟩ : ∃ d, j = r + 1 + d := ⟨j - (r + 1), by omega⟩
        rw [show r + 1 + d - (r + 1) = d by omega, show r + 1 + d - r = d + 1 by omega]
        simp
      · rw [if_neg hr, if_neg (by omega)]

/-- Loading bytes into V[0], V[1], ...: the registers past the last byte keep their values
(45_index_memory.md R195). -/
theorem reg_loadRegs (bs : List Byte) (y : Reg) :
    (s.loadRegs bs).reg y = if y.val < bs.length then bs.getD y.val 0 else s.reg y := by
  simp only [State.reg, loadRegs_v, fillRegs_getElem]
  simp

@[simp] theorem dumpBytes_length (x : Reg) : (s.dumpBytes x).length = x.val + 1 := by
  simp only [State.dumpBytes, List.length_take, Vector.length_toList]
  omega

/-- Byte r of a register dump is V[r] (45_index_memory.md R194). -/
theorem dumpBytes_getD (x r : Reg) (h : r.val ≤ x.val) : (s.dumpBytes x).getD r.val 0 = s.reg r := by
  have hr : r.val < s.v.toList.length := by simp
  rw [State.dumpBytes, List.getD_eq_getElem?_getD, List.getElem?_take_of_lt (by omega),
    List.getElem?_eq_getElem hr]
  simp [State.reg]

@[simp] theorem bcdDigits_length (b : Byte) : (bcdDigits b).length = 3 := rfl

/-! ## Operand and flag values -/

@[simp] theorem zext12_toNat (nnn : Addr12) : (zext12 nnn).toNat = nnn.toNat := by
  have := nnn.isLt
  simp only [zext12, BitVec.toNat_ofNat]
  omega

@[simp] theorem zext8_toNat (b : Byte) : (zext8 b).toNat = b.toNat := by
  have := b.isLt
  simp only [zext8, BitVec.toNat_ofNat]
  omega

@[simp] theorem fontAddress_toNat (b : Byte) : (fontAddress b).toNat = 5 * (b.toNat % 16) := by
  simp only [fontAddress, Config.fontBase, BitVec.toNat_ofNat]
  omega

@[simp] theorem flagByte_toNat (c : Bool) : (flagByte c).toNat = if c then 1 else 0 := by
  cases c <;> rfl

/-- What a register dump or load of `n` bytes in range leaves in I (45_index_memory.md R194). -/
theorem advanceIndex_toNat {n : Nat} (h : s.i.toNat + n ≤ 4096) :
    (s.advanceIndex n).i.toNat = if s.cfg.indexInc then s.i.toNat + n else s.i.toNat := by
  unfold State.advanceIndex
  split
  · simp only [setI_i, BitVec.toNat_ofNat]
    omega
  · rfl

/-! ## The stack -/

/-- A push succeeds exactly with an entry free; it writes STACK[SP] and advances SP. -/
theorem push_eq_some {w : Word} {t : State} :
    s.push w = some t ↔ ∃ h : s.sp.val < 16,
      t = { s with stack := s.stack.set s.sp.val w, sp := ⟨s.sp.val + 1, by omega⟩ } := by
  unfold State.push
  split
  · simp [*, eq_comm]
  · simp [*]

theorem push_eq_none {w : Word} : s.push w = none ↔ s.sp = 16 := by
  unfold State.push
  rw [Fin.ext_iff]
  have := s.sp.isLt
  split
  · simp only [reduceCtorEq, false_iff]; change ¬ s.sp.val = 16; omega
  · simp only [true_iff]; change s.sp.val = 16; omega

/-- A pop succeeds exactly with an entry in use; it gives STACK[SP - 1] and moves SP only. -/
theorem pop_eq_some {w : Word} {t : State} :
    s.pop = some (w, t) ↔ ∃ h : 0 < s.sp.val,
      w = s.stack[s.sp.val - 1]'(by have := s.sp.isLt; omega) ∧
      t = { s with sp := ⟨s.sp.val - 1, by have := s.sp.isLt; omega⟩ } := by
  unfold State.pop
  split
  · simp [*, eq_comm]
  · simp [*]

theorem pop_eq_none : s.pop = none ↔ s.sp = 0 := by
  unfold State.pop
  rw [Fin.ext_iff]
  split
  · simp only [reduceCtorEq, false_iff]; change ¬ s.sp.val = 0; omega
  · simp only [true_iff]; change s.sp.val = 0; omega

/-! ## Keys -/

/-- key_select finds no key exactly when none is pressed (47_keypad.md R234). -/
theorem keySelect_eq_none {key : Vector Bool 16} :
    keySelect key = none ↔ ∀ k : Reg, key[k.val] = false := by
  simp [keySelect]

/-- key_select gives a pressed key below which none is pressed (R234). -/
theorem keySelect_spec {key : Vector Bool 16} {k : Reg} (h : keySelect key = some k) :
    key[k.val] = true ∧ ∀ j : Reg, j < k → key[j.val] = false := by
  rw [keySelect, List.find?_eq_some_iff_getElem] at h
  obtain ⟨h1, n, hn, rfl, h3⟩ := h
  refine ⟨by simpa using h1, fun j hj => ?_⟩
  simp only [List.getElem_finRange, Fin.lt_def] at hj
  have := h3 j.val hj
  simpa using this

/-- The key reported is the smallest pressed one, and there is one whenever a key is pressed. -/
theorem keySelect_eq_some {key : Vector Bool 16} {k : Reg} :
    keySelect key = some k ↔ key[k.val] = true ∧ ∀ j : Reg, j < k → key[j.val] = false := by
  refine ⟨keySelect_spec, fun ⟨hk, hmin⟩ => ?_⟩
  cases hs : keySelect key with
  | none => simp [keySelect_eq_none.1 hs k] at hk
  | some k' =>
    obtain ⟨h1, h2⟩ := keySelect_spec hs
    rcases lt_trichotomy k k' with lt | rfl | gt
    · simp [h2 k lt] at hk
    · rfl
    · simp [hmin k' gt] at h1

/-! ## Fetch -/

/-- A fetch succeeds exactly at PC <= 0xFFE (40_cycle.md R123). -/
theorem fetch_eq_none : s.fetch = none ↔ 0xFFE < s.pc.toNat := by
  unfold State.fetch rangeOk
  simp only [Config.memLast]
  split <;> simp_all <;> omega

theorem fetch_eq_some {w : Word} {t : State} :
    s.fetch = some (w, t) ↔ s.pc.toNat ≤ 0xFFE ∧
      w = wordOfBytes (s.mem.read s.pc.toNat) (s.mem.read (s.pc.toNat + 1)) ∧
      t = s.setPc (s.pc + 2) := by
  unfold State.fetch rangeOk
  simp only [Config.memLast]
  split <;> simp_all [eq_comm] <;> omega

end Sys2Proof.Machine
end

