-- ==== Sys2Proof/Laws/Machine.lean ====
section
/-!
SUPPORT. One lemma for each way a meaning, a CYCLE or a host event can go, so that no later proof
unfolds them: the instructions with an error condition, the phases of a CYCLE, the service of the
host's events, and the placing of an instruction word.
-/

namespace Sys2Proof.Machine

variable {s : State}

/-! ## Instructions with an error condition -/

theorem execRet_of_pos (h : 0 < s.sp.val) :
    execRet s = .next { s with
      pc := s.stack[s.sp.val - 1]'(by have := s.sp.isLt; omega)
      sp := ⟨s.sp.val - 1, by have := s.sp.isLt; omega⟩ } := by
  unfold execRet
  rw [(pop_eq_some s).2 ⟨h, rfl, rfl⟩]
  rfl

theorem execRet_of_zero (h : s.sp = 0) : execRet s = .next (s.raise .stackUnderflow) := by
  unfold execRet
  rw [(pop_eq_none s).2 h]

theorem execCall_of_lt (nnn : Addr12) (h : s.sp.val < 16) :
    execCall nnn s = .next { s with
      stack := s.stack.set s.sp.val s.pc
      sp := ⟨s.sp.val + 1, by omega⟩
      pc := zext12 nnn } := by
  unfold execCall
  rw [(push_eq_some s).2 ⟨h, rfl⟩]
  rfl

theorem execCall_of_full (nnn : Addr12) (h : s.sp = 16) :
    execCall nnn s = .next (s.raise .stackOverflow) := by
  unfold execCall
  rw [(push_eq_none s).2 h]

theorem execLdB_of_range (x : Reg) (h : s.i.toNat + 3 ≤ 4096) :
    execLdB x s = .next (s.setMem (s.mem.writeBlock s.i.toNat (bcdDigits (s.reg x)))) :=
  if_pos (rangeOk_iff.2 (.inr h))

theorem execRegDump_of_range (x : Reg) (h : s.i.toNat + (x.val + 1) ≤ 4096) :
    execRegDump x s =
      .next ((s.setMem (s.mem.writeBlock s.i.toNat (s.dumpBytes x))).advanceIndex (x.val + 1)) :=
  if_pos (rangeOk_iff.2 (.inr h))

theorem execRegLoad_of_range (x : Reg) (h : s.i.toNat + (x.val + 1) ≤ 4096) :
    execRegLoad x s =
      .next ((s.loadRegs (s.mem.readBlock s.i.toNat (x.val + 1))).advanceIndex (x.val + 1)) :=
  if_pos (rangeOk_iff.2 (.inr h))

/-- The drawing a DRW makes: the display and the collision (46_display.md R212). -/
theorem execDrw_of_range (x y : Reg) {n : Nat} (h : n = 0 ∨ s.i.toNat + n ≤ 4096) :
    execDrw x y n s =
      .next ((s.setFb (drawRows (s.reg x).toNat (s.reg y).toNat
        (s.mem.readBlock s.i.toNat n) (s.fb, false)).1).setReg regF
        (flagByte (drawRows (s.reg x).toNat (s.reg y).toNat
        (s.mem.readBlock s.i.toNat n) (s.fb, false)).2)) :=
  if_pos (rangeOk_iff.2 h)

/-- The four memory instructions raise when an address of theirs is above 0xFFF, and do nothing
else (45_index_memory.md R196). -/
theorem execLdB_of_out (x : Reg) (h : 4096 < s.i.toNat + 3) :
    execLdB x s = .next (s.raise .addressOutOfRange) :=
  if_neg (by rw [Bool.not_eq_true, rangeOk_false_iff]; omega)

theorem execRegDump_of_out (x : Reg) (h : 4096 < s.i.toNat + (x.val + 1)) :
    execRegDump x s = .next (s.raise .addressOutOfRange) :=
  if_neg (by rw [Bool.not_eq_true, rangeOk_false_iff]; omega)

theorem execRegLoad_of_out (x : Reg) (h : 4096 < s.i.toNat + (x.val + 1)) :
    execRegLoad x s = .next (s.raise .addressOutOfRange) :=
  if_neg (by rw [Bool.not_eq_true, rangeOk_false_iff]; omega)

theorem execDrw_of_out (x y : Reg) {n : Nat} (hn : 0 < n) (h : 4096 < s.i.toNat + n) :
    execDrw x y n s = .next (s.raise .addressOutOfRange) :=
  if_neg (by rw [Bool.not_eq_true, rangeOk_false_iff]; omega)

/-! ## The phases of a CYCLE (40_cycle.md R120) -/

/-- Phase 0: a latched error (R121). -/
theorem cycle_of_latched {k : FatalKind} (h : s.fault = some k) :
    cycle s = .next (s.answer (.error k.kind)) := by
  unfold cycle
  rw [h]

/-- Phase 1: a key wait (R122). -/
theorem cycle_of_waiting {t : Reg} (h : s.fault = none) (hm : s.mode = .awaitingKey t) :
    cycle s = .next ((keyWait t s).answer .ok) := by
  unfold cycle
  rw [h, hm]

/-- Phase 2: a fetch from outside memory (R123). -/
theorem cycle_of_fetch_out (h : s.fault = none) (hm : s.mode = .running)
    (hp : 0xFFE < s.pc.toNat) : cycle s = .next (s.raise .addressOutOfRange) := by
  unfold cycle
  rw [h, hm]
  simp only [(fetch_eq_none s).2 hp]

/-- Phases 2 and 3: a word is fetched and decoded (R123, R124). -/
theorem cycle_of_fetch (h : s.fault = none) (hm : s.mode = .running) (hp : s.pc.toNat ≤ 0xFFE) :
    cycle s = decodeExecute
      (wordOfBytes (s.mem.read s.pc.toNat) (s.mem.read (s.pc.toNat + 1))) (s.setPc (s.pc + 2)) := by
  unfold cycle
  rw [h, hm]
  simp only [(fetch_eq_some s).2 ⟨hp, rfl, rfl⟩]

/-- Phase 4: the decoded instruction is executed with PC advanced (R125). -/
theorem decodeExecute_of_ok {w : Word} {i : Instr} (h : decode w = .ok i) :
    decodeExecute w s = exec i (s.answer .ok) := by
  unfold decodeExecute
  rw [h]

theorem decodeExecute_of_error {w : Word} {e : DecodeError} (h : decode w = .error e) :
    decodeExecute w s = .next (s.answer (.error .unknownOpcode)) := by
  unfold decodeExecute
  rw [h]

/-! ## Steps -/

theorem step_of_idle (h : s.pending = []) : step s = cycle s := by
  unfold step serve
  rw [h]

theorem step_of_event {e : HostEvent} {rest : List HostEvent} (h : s.pending = e :: rest) :
    step s = runEvent e { s with pending := rest } := by
  unfold step serve
  rw [h]

/-- A run whose first step answers a next state goes on from that state. -/
theorem run_of_step (M : Host.Core) {n : Nat} {a b : M.State} (h : M.step a = .next b) :
    M.run (n + 1) a = M.run n b := by
  simp only [Host.Core.run, h]

/-- A tick lowers a timer by one and stops at zero (60_exceptions.md R261). -/
theorem timerTick_toNat (b : Byte) : (timerTick b).toNat = b.toNat - 1 := by
  unfold timerTick
  split
  · simp [*]
  · have h : b.toNat ≠ 0 := fun e => ‹¬ b = 0› (BitVec.eq_of_toNat_eq e)
    have := b.isLt
    have h1 : (1 : Byte).toNat = 1 := rfl
    rw [BitVec.toNat_sub, h1]
    omega

/-- The coordinates a DRW touches: the wrapped 1 bits of the n bytes at I (46_display.md R212). -/
theorem mem_spritePoints_readBlock {m : Memory} {x0 y0 a n px py : Nat} :
    (px, py) ∈ spritePoints x0 y0 (m.readBlock a n) ↔ ∃ r < n, ∃ c < 8,
      spriteBit (m.read (a + r)) c = true ∧ px = (x0 + c) % 64 ∧ py = (y0 + r) % 32 := by
  rw [mem_spritePoints, readBlock_length]
  refine exists_congr fun r => and_congr_right fun hr => exists_congr fun c =>
    and_congr_right fun _ => ?_
  rw [List.getD_eq_getElem?_getD, readBlock_getElem?, if_pos hr, Option.getD_some, Prod.mk.injEq]

/-- The wait's continuation, by key_select (40_cycle.md R122). -/
theorem keyWait_of_some {t k : Reg} (h : keySelect s.key = some k) :
    keyWait t s = (s.setReg t (BitVec.ofNat 8 k.val)).setMode .running := by
  unfold keyWait
  rw [h]

theorem keyWait_of_none {t : Reg} (h : keySelect s.key = none) : keyWait t s = s := by
  unfold keyWait
  rw [h]

theorem execLdVxK_of_some {x k : Reg} (h : keySelect s.key = some k) :
    execLdVxK x s = .next (s.setReg x (BitVec.ofNat 8 k.val)) := by
  unfold execLdVxK
  rw [h]

theorem execLdVxK_of_none {x : Reg} (h : keySelect s.key = none) :
    execLdVxK x s = .next (s.setMode (.awaitingKey x)) := by
  unfold execLdVxK
  rw [h]

theorem load_of_le {rom : List Byte} (h : rom.length ≤ 3584) :
    load rom s = { s.init rom with romimg := rom }.answer .ok :=
  if_neg (Nat.not_lt.2 h)

theorem load_of_gt {rom : List Byte} (h : 3584 < rom.length) :
    load rom s = s.answer (.error .romTooLarge) :=
  if_pos h

end Sys2Proof.Machine
end

