-- ==== Sys2Proof/Laws/PerInstr.lean ====
section
/-!
SUPPORT. The per-instruction family TableRow: the encoder agrees with the opcode table. For each
well-formed instruction, the row of R94 that carries its mnemonic is in the table, and the
instruction's word matches that row's mask and pattern (30_encoding.md R92, R94).
-/

namespace Sys2Proof.Laws.TableRow

/-- The word of `i` matches the row of its mnemonic. -/
def Statement (i : Instr) : Prop :=
  i.WellFormed → ∃ row ∈ opcodeTable, row.mnemonic = i.mnemonic ∧ row.matches (encode i) = true

theorem matches_F000 {m : String} {w p : Word} (h : BitVec.ofNat 16 (fieldOp w * 4096) = p) :
    OpcodeRow.matches ⟨m, 0xF000, p⟩ w = true := by
  simp only [OpcodeRow.matches, and_F000, h, beq_self_eq_true]

theorem matches_F00F {m : String} {w p : Word}
    (h : BitVec.ofNat 16 (fieldOp w * 4096 + fieldN w) = p) :
    OpcodeRow.matches ⟨m, 0xF00F, p⟩ w = true := by
  simp only [OpcodeRow.matches, and_F00F, h, beq_self_eq_true]

theorem matches_F0FF {m : String} {w p : Word}
    (h : BitVec.ofNat 16 (fieldOp w * 4096 + bits w 7 0) = p) :
    OpcodeRow.matches ⟨m, 0xF0FF, p⟩ w = true := by
  simp only [OpcodeRow.matches, and_F0FF, h, beq_self_eq_true]

theorem cls : Statement .cls :=
  fun _ => ⟨⟨"CLS", 0xFFFF, 0x00E0⟩, by decide, rfl, by decide⟩

theorem ret : Statement .ret :=
  fun _ => ⟨⟨"RET", 0xFFFF, 0x00EE⟩, by decide, rfl, by decide⟩

theorem jp (nnn : Addr12) : Statement (.jp nnn) :=
  fun _ => ⟨⟨"JP_nnn", 0xF000, 0x1000⟩, by decide, rfl, matches_F000 (by simp [encode])⟩

theorem call (nnn : Addr12) : Statement (.call nnn) :=
  fun _ => ⟨⟨"CALL_nnn", 0xF000, 0x2000⟩, by decide, rfl, matches_F000 (by simp [encode])⟩

theorem seImm (x : Reg) (kk : Byte) : Statement (.seImm x kk) :=
  fun _ => ⟨⟨"SE_Vx__kk", 0xF000, 0x3000⟩, by decide, rfl, matches_F000 (by simp [encode])⟩

theorem sneImm (x : Reg) (kk : Byte) : Statement (.sneImm x kk) :=
  fun _ => ⟨⟨"SNE_Vx__kk", 0xF000, 0x4000⟩, by decide, rfl, matches_F000 (by simp [encode])⟩

theorem seReg (x y : Reg) : Statement (.seReg x y) :=
  fun _ => ⟨⟨"SE_Vx__Vy", 0xF00F, 0x5000⟩, by decide, rfl, matches_F00F (by simp [encode])⟩

theorem ldImm (x : Reg) (kk : Byte) : Statement (.ldImm x kk) :=
  fun _ => ⟨⟨"LD_Vx__kk", 0xF000, 0x6000⟩, by decide, rfl, matches_F000 (by simp [encode])⟩

theorem addImm (x : Reg) (kk : Byte) : Statement (.addImm x kk) :=
  fun _ => ⟨⟨"ADD_Vx__kk", 0xF000, 0x7000⟩, by decide, rfl, matches_F000 (by simp [encode])⟩

theorem ldReg (x y : Reg) : Statement (.ldReg x y) :=
  fun _ => ⟨⟨"LD_Vx__Vy", 0xF00F, 0x8000⟩, by decide, rfl, matches_F00F (by simp [encode])⟩

theorem orReg (x y : Reg) : Statement (.orReg x y) :=
  fun _ => ⟨⟨"OR_Vx__Vy", 0xF00F, 0x8001⟩, by decide, rfl, matches_F00F (by simp [encode])⟩

theorem andReg (x y : Reg) : Statement (.andReg x y) :=
  fun _ => ⟨⟨"AND_Vx__Vy", 0xF00F, 0x8002⟩, by decide, rfl, matches_F00F (by simp [encode])⟩

theorem xorReg (x y : Reg) : Statement (.xorReg x y) :=
  fun _ => ⟨⟨"XOR_Vx__Vy", 0xF00F, 0x8003⟩, by decide, rfl, matches_F00F (by simp [encode])⟩

theorem addReg (x y : Reg) : Statement (.addReg x y) :=
  fun _ => ⟨⟨"ADD_Vx__Vy", 0xF00F, 0x8004⟩, by decide, rfl, matches_F00F (by simp [encode])⟩

theorem sub (x y : Reg) : Statement (.sub x y) :=
  fun _ => ⟨⟨"SUB_Vx__Vy", 0xF00F, 0x8005⟩, by decide, rfl, matches_F00F (by simp [encode])⟩

theorem shr (x y : Reg) : Statement (.shr x y) :=
  fun _ => ⟨⟨"SHR_Vx____Vy", 0xF00F, 0x8006⟩, by decide, rfl, matches_F00F (by simp [encode])⟩

theorem subn (x y : Reg) : Statement (.subn x y) :=
  fun _ => ⟨⟨"SUBN_Vx__Vy", 0xF00F, 0x8007⟩, by decide, rfl, matches_F00F (by simp [encode])⟩

theorem shl (x y : Reg) : Statement (.shl x y) :=
  fun _ => ⟨⟨"SHL_Vx____Vy", 0xF00F, 0x800E⟩, by decide, rfl, matches_F00F (by simp [encode])⟩

theorem sneReg (x y : Reg) : Statement (.sneReg x y) :=
  fun _ => ⟨⟨"SNE_Vx__Vy", 0xF00F, 0x9000⟩, by decide, rfl, matches_F00F (by simp [encode])⟩

theorem ldI (nnn : Addr12) : Statement (.ldI nnn) :=
  fun _ => ⟨⟨"LD_I__nnn", 0xF000, 0xA000⟩, by decide, rfl, matches_F000 (by simp [encode])⟩

theorem jpV0 (nnn : Addr12) : Statement (.jpV0 nnn) :=
  fun _ => ⟨⟨"JP_V0__nnn", 0xF000, 0xB000⟩, by decide, rfl, matches_F000 (by simp [encode])⟩

theorem rnd (x : Reg) (kk : Byte) : Statement (.rnd x kk) :=
  fun _ => ⟨⟨"RND_Vx__kk", 0xF000, 0xC000⟩, by decide, rfl, matches_F000 (by simp [encode])⟩

theorem drw (x y : Reg) (n : Nat) : Statement (.drw x y n) :=
  fun h => ⟨⟨"DRW_Vx__Vy__n", 0xF000, 0xD000⟩, by decide, rfl, matches_F000 (by
    have : n ≤ 15 := of_decide_eq_true h
    rw [encode, fieldOp_encRegReg x y (by decide) (by omega)]
    rfl)⟩

theorem skp (x : Reg) : Statement (.skp x) :=
  fun _ => ⟨⟨"SKP_Vx", 0xF0FF, 0xE09E⟩, by decide, rfl, matches_F0FF (by simp [encode])⟩

theorem sknp (x : Reg) : Statement (.sknp x) :=
  fun _ => ⟨⟨"SKNP_Vx", 0xF0FF, 0xE0A1⟩, by decide, rfl, matches_F0FF (by simp [encode])⟩

theorem ldVxDt (x : Reg) : Statement (.ldVxDt x) :=
  fun _ => ⟨⟨"LD_Vx__DT", 0xF0FF, 0xF007⟩, by decide, rfl, matches_F0FF (by simp [encode])⟩

theorem ldVxK (x : Reg) : Statement (.ldVxK x) :=
  fun _ => ⟨⟨"LD_Vx__K", 0xF0FF, 0xF00A⟩, by decide, rfl, matches_F0FF (by simp [encode])⟩

theorem ldDtVx (x : Reg) : Statement (.ldDtVx x) :=
  fun _ => ⟨⟨"LD_DT__Vx", 0xF0FF, 0xF015⟩, by decide, rfl, matches_F0FF (by simp [encode])⟩

theorem ldStVx (x : Reg) : Statement (.ldStVx x) :=
  fun _ => ⟨⟨"LD_ST__Vx", 0xF0FF, 0xF018⟩, by decide, rfl, matches_F0FF (by simp [encode])⟩

theorem addI (x : Reg) : Statement (.addI x) :=
  fun _ => ⟨⟨"ADD_I__Vx", 0xF0FF, 0xF01E⟩, by decide, rfl, matches_F0FF (by simp [encode])⟩

theorem ldF (x : Reg) : Statement (.ldF x) :=
  fun _ => ⟨⟨"LD_F__Vx", 0xF0FF, 0xF029⟩, by decide, rfl, matches_F0FF (by simp [encode])⟩

theorem ldB (x : Reg) : Statement (.ldB x) :=
  fun _ => ⟨⟨"LD_B__Vx", 0xF0FF, 0xF033⟩, by decide, rfl, matches_F0FF (by simp [encode])⟩

theorem regDump (x : Reg) : Statement (.regDump x) :=
  fun _ => ⟨⟨"LD__I___Vx", 0xF0FF, 0xF055⟩, by decide, rfl, matches_F0FF (by simp [encode])⟩

theorem regLoad (x : Reg) : Statement (.regLoad x) :=
  fun _ => ⟨⟨"LD_Vx___I", 0xF0FF, 0xF065⟩, by decide, rfl, matches_F0FF (by simp [encode])⟩

end Sys2Proof.Laws.TableRow
end

