-- ==== Sys2Proof/Tests/Slice0.lean ====
section
/-!
SUPPORT. The model's own tests: the WellFormed smoke, one written-out word for every constructor,
single steps, and for every obligation with hypotheses a state and operands that meet them. The
expected values are those of 95_test_vectors.md (T<n>, E<n>) or worked out by hand from the rule
named beside them, never the model's answer.
-/

open Sys2Proof Sys2Proof.Machine Sys2Proof.Claims

namespace Sys2Proof.Tests

/-- A machine about to run the word `w` at 0x200, with the given registers, both quirk bits off. -/
def start (w : Word) (regs : List (Reg × Byte)) : State :=
  regs.foldl (fun s r => s.setReg r.1 r.2)
    { State.reset.withFetchWord 16 w.toNat with cfg := ⟨false, false⟩ }

/-- The same with bytes stored from 0x300 on and I = 0x300. -/
def startMem (w : Word) (regs : List (Reg × Byte)) (bytes : List Byte) : State :=
  { start w regs with i := 0x300, mem := (start w regs).mem.writeBlock 0x300 bytes }

/-- Both quirk bits on. -/
def quirky (s : State) : State := { s with cfg := ⟨true, true⟩ }

/-- Some view of the state after one step. -/
def after {α : Type} (f : State → α) (s : State) : Option α :=
  match step s with
  | .next t => some (f t)
  | _ => none

/-- V1, VF, PC and the reply. -/
def alu (s : State) : Byte × Byte × Word × Option Reply := (s.reg 1, s.reg 15, s.pc, s.reply)

/-- The x of the pixels that are on in a row. -/
def lit (s : State) (y : Nat) : List Nat := (List.range 64).filter fun x => s.fb.pixel x y

/-! ## WellFormed: the one check (30_encoding.md R91, R93) -/

theorem test_wf_refuses_height_16 : ¬ Instr.WellFormed (.drw 0 0 16) := by decide

theorem test_wf_accepts_height_15 : Instr.WellFormed (.drw 15 15 15) := by decide

theorem test_wf_accepts_others : Instr.WellFormed .cls ∧ Instr.WellFormed (.regLoad 15) := by decide

/-! ## Decoding: the words of 95_test_vectors.md 2.1, in its order -/

theorem test_decode_families_0_to_7 :
    [0x00E0, 0x00EE, 0x1ABC, 0x2ABC, 0x3A7F, 0x4A7F, 0x5AB0, 0x6A7F, 0x7A7F].map decode =
      [.ok .cls, .ok .ret, .ok (.jp 0xABC), .ok (.call 0xABC), .ok (.seImm 10 0x7F),
       .ok (.sneImm 10 0x7F), .ok (.seReg 10 11), .ok (.ldImm 10 0x7F), .ok (.addImm 10 0x7F)] := by
  decide

theorem test_decode_family_8 :
    [0x8AB0, 0x8AB1, 0x8AB2, 0x8AB3, 0x8AB4, 0x8AB5, 0x8AB6, 0x8AB7, 0x8ABE, 0x8AA6].map decode =
      [.ok (.ldReg 10 11), .ok (.orReg 10 11), .ok (.andReg 10 11), .ok (.xorReg 10 11),
       .ok (.addReg 10 11), .ok (.sub 10 11), .ok (.shr 10 11), .ok (.subn 10 11),
       .ok (.shl 10 11), .ok (.shr 10 10)] := by
  decide

theorem test_decode_families_9_to_E :
    [0x9AB0, 0xA123, 0xB123, 0xCA0F, 0xDAB5, 0xEA9E, 0xEAA1].map decode =
      [.ok (.sneReg 10 11), .ok (.ldI 0x123), .ok (.jpV0 0x123), .ok (.rnd 10 0x0F),
       .ok (.drw 10 11 5), .ok (.skp 10), .ok (.sknp 10)] := by
  decide

theorem test_decode_family_F :
    [0xFA07, 0xFA0A, 0xFA15, 0xFA18, 0xFA1E, 0xFA29, 0xFA33, 0xFA55, 0xFA65].map decode =
      [.ok (.ldVxDt 10), .ok (.ldVxK 10), .ok (.ldDtVx 10), .ok (.ldStVx 10), .ok (.addI 10),
       .ok (.ldF 10), .ok (.ldB 10), .ok (.regDump 10), .ok (.regLoad 10)] := by
  decide

/-- The list of 2.2. -/
def unknownWords : List Word :=
  [0x0000, 0x00E1, 0x00EF, 0x00FE, 0x0123, 0x0FFF, 0x5121, 0x512F, 0x8128, 0x812D, 0x812F,
   0x9121, 0xE000, 0xE19F, 0xE1A0, 0xE1FF, 0xF000, 0xF0FF, 0xF10B, 0xF130, 0xF175, 0xF185]

theorem test_decode_unknown_words :
    unknownWords.map decode = unknownWords.map fun w => .error (.unknownOpcode w) := by
  rfl

theorem test_encode_words :
    [Instr.ret, .jp 0xABC, .seReg 10 11, .shl 10 11, .rnd 10 0x0F, .drw 10 11 5, .sknp 10,
      .regLoad 10].map encode =
      [0x00EE, 0x1ABC, 0x5AB0, 0x8ABE, 0xCA0F, 0xDAB5, 0xEAA1, 0xFA65] := by
  decide

theorem test_decode_bytes_is_big_endian :
    decodeBytes [0x12, 0x34, 0x56] = .ok (.jp 0x234, [0x56]) ∧
      decodeTableWord 16 0x60FE = some (.ldImm 0 0xFE) ∧
      decodeBytes [0x12] = .error .truncated := by
  decide

theorem test_asm_spelling : (Instr.drw 10 11 5).asm = "DRW VA, VB, 0x5".toList ∧
    (Instr.regLoad 10).asm = "LD VA, [I]".toList ∧ (Instr.jp 0xABC).asm = "JP 0xABC".toList := by
  decide

/-! ## Single steps (95_test_vectors.md 2.3 to 2.11) -/

/-- T1. -/
theorem test_jp : after (·.pc) (start 0x1ABC []) = some 0xABC := by decide

/-- T4. -/
theorem test_call : after (fun t => (t.pc, t.sp, t.stack[0])) (start 0x2ABC []) =
    some (0xABC, 1, 0x202) := by decide

/-- T6. -/
theorem test_call_overflow : after (fun t => (t.pc, t.sp, t.fault, t.reply))
    { start 0x2ABC [] with sp := 16 } =
    some (0x202, 16, some .stackOverflow, some (.error .stackOverflow)) := by decide

/-- T7. -/
theorem test_ret : after (fun t => (t.pc, t.sp)) { start 0x00EE [] with
    sp := 2, stack := State.reset.stack.set 1 0x400 } = some (0x400, 1) := by decide

/-- T8. -/
theorem test_ret_underflow : after (fun t => (t.pc, t.sp, t.fault)) (start 0x00EE []) =
    some (0x202, 0, some .stackUnderflow) := by decide

/-- T11. -/
theorem test_jp_v0_no_wrap : after (·.pc) (start 0xBFFF [(0, 0xFF)]) = some 0x10FE := by decide

/-- T20, T21. -/
theorem test_se_imm : after (·.pc) (start 0x3144 [(1, 0x44)]) = some 0x204 ∧
    after (·.pc) (start 0x3144 [(1, 0x45)]) = some 0x202 := by decide

/-- T22, T23. -/
theorem test_sne_imm : after (·.pc) (start 0x4144 [(1, 0x44)]) = some 0x202 ∧
    after (·.pc) (start 0x4144 [(1, 0x45)]) = some 0x204 := by decide

/-- T24, T25. -/
theorem test_se_reg : after (·.pc) (start 0x5120 [(1, 7), (2, 7)]) = some 0x204 ∧
    after (·.pc) (start 0x5120 [(1, 7), (2, 8)]) = some 0x202 := by decide

/-- T27, T28. -/
theorem test_sne_reg : after (·.pc) (start 0x9120 [(1, 7), (2, 7)]) = some 0x202 ∧
    after (·.pc) (start 0x9120 [(1, 7), (2, 8)]) = some 0x204 := by decide

/-- T31: an unknown word. -/
theorem test_unknown_word : after (fun t => (t.pc, t.fault, t.reply))
    (start 0x5121 [(1, 7), (2, 7)]) = some (0x202, none, some (.error .unknownOpcode)) := by decide

/-- T40. -/
theorem test_ld_imm : after alu (start 0x61AB [(1, 0x11)]) = some (0xAB, 0, 0x202, some .ok) := by
  decide

/-- T43. -/
theorem test_add_imm : after alu (start 0x7101 [(1, 0xFF), (15, 5)]) =
    some (0, 5, 0x202, some .ok) := by decide

/-- T47: any draw gives 0 under the mask 0. -/
theorem test_rnd_mask : after (·.reg 1) (start 0xC100 [(1, 0x77)]) = some 0 := by
  show some (Config.rnd 0 &&& 0x00) = some 0
  simp

/-- T60. -/
theorem test_ld_reg : after alu (start 0x8120 [(1, 0x12), (2, 0x34)]) =
    some (0x34, 0, 0x202, some .ok) := by decide

/-- T61. -/
theorem test_or : after alu (start 0x8121 [(1, 0x0F), (2, 0xF0), (15, 0x55)]) =
    some (0xFF, 0x55, 0x202, some .ok) := by decide

/-- T62. -/
theorem test_and : after alu (start 0x8122 [(1, 0x3C), (2, 0x0F), (15, 0x55)]) =
    some (0x0C, 0x55, 0x202, some .ok) := by decide

/-- T63. -/
theorem test_xor : after alu (start 0x8123 [(1, 0xFF), (2, 0x0F), (15, 0x55)]) =
    some (0xF0, 0x55, 0x202, some .ok) := by decide

/-- T65, T66. -/
theorem test_add : after alu (start 0x8124 [(1, 0xFF), (2, 0x01)]) = some (0, 1, 0x202, some .ok) ∧
    after alu (start 0x8124 [(1, 0x7F), (2, 0x80), (15, 9)]) = some (0xFF, 0, 0x202, some .ok) := by
  decide

/-- T70, T71. -/
theorem test_add_with_vf : after (·.reg 15) (start 0x8F14 [(15, 0x10), (1, 2)]) = some 0 ∧
    after alu (start 0x81F4 [(1, 0xFF), (15, 1)]) = some (0, 1, 0x202, some .ok) := by decide

/-- T73, T74. -/
theorem test_sub : after alu (start 0x8125 [(1, 5), (2, 5)]) = some (0, 1, 0x202, some .ok) ∧
    after alu (start 0x8125 [(1, 5), (2, 6), (15, 9)]) = some (0xFF, 0, 0x202, some .ok) := by
  decide

/-- T80, T81. -/
theorem test_subn : after alu (start 0x8127 [(1, 5), (2, 6)]) = some (1, 1, 0x202, some .ok) ∧
    after alu (start 0x8127 [(1, 6), (2, 5), (15, 9)]) = some (0xFF, 0, 0x202, some .ok) := by
  decide

/-- T90, under both values of SHIFT_SRC_VY. -/
theorem test_shr : after alu (start 0x8126 [(1, 5), (2, 8)]) = some (2, 1, 0x202, some .ok) ∧
    after alu (quirky (start 0x8126 [(1, 5), (2, 8)])) = some (4, 0, 0x202, some .ok) := by decide

/-- T92, under both values of SHIFT_SRC_VY. -/
theorem test_shl : after alu (start 0x812E [(1, 0x81), (2, 0x40)]) = some (2, 1, 0x202, some .ok) ∧
    after alu (quirky (start 0x812E [(1, 0x81), (2, 0x40)])) = some (0x80, 0, 0x202, some .ok) := by
  decide

/-- T110. -/
theorem test_ld_i : after (·.i) (start 0xA123 []) = some 0x123 := by decide

/-- T113. -/
theorem test_add_i : after (fun t => (t.i, t.reg 15))
    { start 0xF11E [(1, 2), (15, 0x33)] with i := 0xFFFF } = some (1, 0x33) := by decide

/-- T116. -/
theorem test_ld_f : after (·.i) (start 0xF129 [(1, 0xFA)]) = some 0x32 := by decide

/-- T119. -/
theorem test_bcd : after (fun t => (t.mem.readBlock 0x2FF 5, t.i))
    (startMem 0xF133 [(1, 0xFE)] []) = some ([0, 2, 5, 4, 0], 0x300) := by decide

/-- T125. -/
theorem test_bcd_out_of_range : after (fun t => (t.mem.read 0xFFE, t.pc, t.fault))
    { start 0xF133 [(1, 0x7B)] with i := 0xFFE } =
    some (0, 0x202, some .addressOutOfRange) := by decide

/-- T130, under both values of INDEX_INC. -/
theorem test_reg_dump :
    after (fun t => (t.mem.readBlock 0x300 4, t.i))
      (startMem 0xF255 [(0, 0x11), (1, 0x22), (2, 0x33), (3, 0x44)] []) =
      some ([0x11, 0x22, 0x33, 0], 0x300) ∧
    after (·.i) (quirky (startMem 0xF255 [] [])) = some 0x303 := by decide

/-- T135, under both values of INDEX_INC. -/
theorem test_reg_load :
    after (fun t => (t.reg 0, t.reg 2, t.reg 3, t.i))
      (startMem 0xF265 [(3, 4)] [0xAA, 0xBB, 0xCC, 0xDD]) = some (0xAA, 0xCC, 4, 0x300) ∧
    after (·.i) (quirky (startMem 0xF265 [] [])) = some 0x303 := by decide

/-- T166. -/
theorem test_cls : after (·.fb) { start 0x00E0 [] with fb := State.reset.fb.set 3 0xFF } =
    some (Vector.replicate 32 0) := by decide

/-- T158, and T152 for the wrap. -/
theorem test_drw : after (fun t => (lit t 0, t.reg 15)) (startMem 0xD011 [(0, 2)] [0xA0]) =
      some ([2, 4], 0) ∧
    after (fun t => lit t 0) (startMem 0xD011 [(0, 0x3C)] [0xFF]) =
      some [0, 1, 2, 3, 60, 61, 62, 63] := by decide

/-- T159, T164. -/
theorem test_drw_collision :
    after (fun t => (lit t 0, t.reg 15))
      { startMem 0xD011 [] [0xC0] with fb := State.reset.fb.set 0 0x22 } = some ([0, 5], 1) ∧
    after (fun t => (lit t 1, lit t 3)) (startMem 0xD121 [(1, 3), (2, 1)] [0x80]) =
      some ([3], []) := by decide

/-- T182, T181. -/
theorem test_skp : after (·.pc) { start 0xE19E [(1, 0x15)] with
      key := State.reset.key.set 5 true } = some 0x204 ∧
    after (·.pc) { start 0xE19E [(1, 5)] with key := State.reset.key.set 4 true } = some 0x202 := by
  decide

/-- T183, T184. -/
theorem test_sknp : after (·.pc) { start 0xE1A1 [(1, 5)] with
      key := State.reset.key.set 5 true } = some 0x202 ∧
    after (·.pc) (start 0xE1A1 [(1, 5)]) = some 0x204 := by decide

/-- T186, T187. -/
theorem test_ld_k : after (fun t => (t.reg 1, t.mode)) { start 0xF10A [(1, 0x99)] with
      key := (State.reset.key.set 3 true).set 9 true } = some (3, .running) ∧
    after (fun t => (t.reg 1, t.mode, t.pc)) (start 0xF10A [(1, 0x99)]) =
      some (0x99, .awaitingKey 1, 0x202) := by decide

/-- T190: the wait ends and nothing is fetched. -/
theorem test_key_wait_ends : after (fun t => (t.reg 1, t.mode, t.pc))
    { start 0x6277 [] with mode := .awaitingKey 1, key := State.reset.key.set 12 true } =
    some (12, .running, 0x200) := by decide

/-- T200. -/
theorem test_ld_vx_dt : after (fun t => (t.reg 1, t.dt)) { start 0xF107 [(1, 1)] with dt := 0x2A } =
    some (0x2A, 0x2A) := by decide

/-- T201. -/
theorem test_ld_dt : after (·.dt) (start 0xF115 [(1, 0xFF)]) = some 0xFF := by decide

/-- T202, T203. -/
theorem test_ld_st : after (fun t => (t.st, soundActive t)) (start 0xF118 [(1, 1)]) =
      some (1, true) ∧
    after (fun t => (t.st, soundActive t)) { start 0xF118 [] with st := 9 } = some (0, false) := by
  decide

/-- T207. -/
theorem test_tick : after (fun t => (t.dt, t.st, t.reply))
    { start 0x1200 [] with st := 2, pending := [.tick] } = some (0, 1, none) := by decide

/-- T225, T227: the load of F0 55 and a pressed key. -/
theorem test_load : after (fun t => (t.mem.readBlock 0x1FF 4, t.mem.read 0, t.pc, t.keyDown 5))
    { State.reset with
      key := State.reset.key.set 5 true, mem := [(0, 0)], pending := [.load [0xF0, 0x55]] } =
    some ([0, 0xF0, 0x55, 0], 0xF0, 0x200, true) := by decide

/-- T220: the power-on state fetches 0000. -/
theorem test_power_on_step : after (fun t => (t.pc, t.reply)) State.reset =
    some (0x202, some (.error .unknownOpcode)) := by decide

/-- 20_memory.md R69, R70: writing back the unlisted value removes the entry. -/
theorem test_memory_canonical : (Memory.write [] 0x300 7).write 0x300 0 = [] ∧
    Memory.write [] 0 0xF0 = [] := by decide

/-! ## Witnesses: states and operands that meet the hypotheses of the obligations -/

/-- The word `w` at the address `pc`, about to be fetched. -/
def startAt (pc : Word) (w : Word) : State :=
  { State.reset.init [] with
    pc := pc, mem := Memory.writeBlock [] pc.toNat [highByte w, lowByte w] }

/-- DecodeOfEncode and EncodeOfDecode: the largest operands of DRW. -/
theorem witness_well_formed : (Instr.drw 15 15 15).WellFormed ∧
    decode 0xDFFF = .ok (.drw 15 15 15) := by decide

/-- UnknownWordsAreTheListedOnes: a word of each clause at an edge of its range, and a neighbour
that is known. RegisterSkipsCompareRegisters: n at both ends. -/
def edgeWords : List Word :=
  [0x0FFF, 0x5FF1, 0x8FF8, 0x9FFF, 0xEF9F, 0xFF66, 0x5FFF, 0x9001]

theorem witness_unknown_clauses :
    edgeWords.map decode = edgeWords.map (fun w => .error (.unknownOpcode w)) ∧
    [0x00EE, 0x5FF0, 0x8FF7, 0x9FF0, 0xEF9E, 0xFF65].map decode =
      [.ok .ret, .ok (.seReg 15 15), .ok (.subn 15 15), .ok (.sneReg 15 15), .ok (.skp 15),
       .ok (.regLoad 15)] := ⟨rfl, by decide⟩

/-- StepRunsTheDecodedInstruction, at the last address a fetch may have. -/
theorem witness_step_runs : Ready (startAt 0xFFE 0x6A7F) ∧ (startAt 0xFFE 0x6A7F).pc.toNat ≤ 0xFFE ∧
    decode (wordAt (startAt 0xFFE 0x6A7F) 0xFFE) = .ok (.ldImm 10 0x7F) :=
  ⟨⟨rfl, rfl, rfl⟩, by decide, by decide⟩

/-- StepServesTheOldestHostEvent: no event pending, and one before another. -/
theorem witness_step_serves : State.reset.pending = [] ∧
    ({ State.reset with pending := [.tick, .cycle] } : State).pending = .tick :: [.cycle] :=
  ⟨rfl, rfl⟩

/-- LatchedErrorMakesCyclesInert. -/
theorem witness_latched : (State.reset.raise .stackUnderflow).pending = [] ∧
    (State.reset.raise .stackUnderflow).fault = some .stackUnderflow := ⟨rfl, rfl⟩

/-- A key wait with one key pressed. -/
def waiting (k : Reg) : State :=
  { State.reset with mode := .awaitingKey 3, key := State.reset.key.set k.val true }

/-- KeyWaitCyclePollsTheKeys: the wait with the highest key alone pressed, with the lowest, and
with none. -/
theorem witness_key_wait :
    ((waiting 15).keyDown 15 = true ∧ ∀ j, j < 15 → (waiting 15).keyDown j = false) ∧
    (waiting 0).keyDown 0 = true ∧ ∀ j, j < 0 → (waiting 0).keyDown j = false := by decide

theorem witness_key_wait_none :
    ∀ k, ({ State.reset with mode := .awaitingKey 3 } : State).keyDown k = false := by decide

/-- FetchOutsideMemoryIsLatched, at the first address outside; also the clauses of the jumps. -/
theorem witness_fetch_outside : Ready { State.reset with pc := 0xFFF } ∧
    0xFFE < ({ State.reset with pc := 0xFFF } : State).pc.toNat := ⟨⟨rfl, rfl, rfl⟩, by decide⟩

/-- IndexedJumpAddsV0: the smallest sum whose fetch raises. -/
theorem witness_jp_v0_outside : Ready (start 0xBFFE [(0, 1)]) ∧
    0xFFE < (0xFFE : Addr12).toNat + ((start 0xBFFE [(0, 1)]).reg 0).toNat :=
  ⟨⟨rfl, rfl, rfl⟩, by decide⟩

/-- UnknownWordOnlyAdvancesPc. -/
theorem witness_unknown_word : Ready State.reset ∧ State.reset.pc.toNat ≤ 0xFFE ∧
    decode (wordAt State.reset State.reset.pc.toNat) = .error (.unknownOpcode 0) :=
  ⟨⟨rfl, rfl, rfl⟩, by decide, by decide⟩

/-- InstructionErrorsArePreciseAndTyped: each of the four ways. -/
theorem witness_instruction_ends :
    after (·.fault) (startAt 0xFFE 0x6A7F) = some none ∧
    after (·.fault) { startAt 0xFFE 0xF133 with i := 0xFFE } = some (some .addressOutOfRange) ∧
    after (·.fault) { startAt 0xFFE 0x2ABC with sp := 16 } = some (some .stackOverflow) ∧
    after (·.fault) (startAt 0xFFE 0x00EE) = some (some .stackUnderflow) := by decide

/-- PcAfterEachCompletedInstruction, VfHasOnlyItsListedWriters and
EachElementHasOnlyItsListedWriters: instructions that complete, with nothing latched. -/
theorem witness_completes : ∀ i ∈ [Instr.cls, .jp 0, .call 0xFFF, .skp 0, .jpV0 0, .addReg 15 15,
      .drw 15 15 15, .ldVxK 15, .ldB 0, .regDump 15, .regLoad 15],
    State.reset.fault = none ∧
      ∃ t, exec i State.reset = .next t ∧ t.fault = none := by
  simp only [List.forall_mem_cons]
  exact ⟨⟨rfl, _, rfl, rfl⟩, ⟨rfl, _, rfl, rfl⟩, ⟨rfl, _, rfl, rfl⟩, ⟨rfl, _, rfl, rfl⟩,
    ⟨rfl, _, rfl, rfl⟩, ⟨rfl, _, rfl, rfl⟩, ⟨rfl, _, rfl, rfl⟩, ⟨rfl, _, rfl, rfl⟩,
    ⟨rfl, _, rfl, rfl⟩,
    ⟨rfl, _, rfl, advanceIndex_fault _ _⟩, ⟨rfl, _, rfl, advanceIndex_fault _ _⟩, by simp⟩

/-- The same of RET with one entry in use. -/
theorem witness_ret_completes :
    ∃ t, exec .ret { State.reset with sp := 1 } = .next t ∧ t.fault = none := ⟨_, rfl, rfl⟩

/-- RetPopsTheReturnAddress and CallPushesTheReturnAddress: every clause at both ends of SP. -/
theorem witness_stack : (1 : Fin 17).val = (0 : Fin 16).val + 1 ∧
    (16 : Fin 17).val = (15 : Fin 16).val + 1 ∧ (0 : Fin 17).val = (0 : Fin 16).val ∧
    (15 : Fin 17).val = (15 : Fin 16).val := by decide

/-- CallThenReturnComesBack: E2. -/
theorem witness_call_return :
    let s := { startAt 0x200 0x2300 with
      sp := 15, mem := (startAt 0x200 0x2300).mem.writeBlock 0x300 [0x00, 0xEE] }
    Ready s ∧ s.pc.toNat ≤ 0xFFE ∧ s.sp.val < 16 ∧
      decode (wordAt s s.pc.toNat) = .ok (.call 0x300) ∧ (0x300 : Addr12).toNat ≤ 0xFFE ∧
      wordAt s 0x300 = 0x00EE :=
  ⟨⟨rfl, rfl, rfl⟩, by decide, by decide, by decide, by decide, by decide⟩

/-- SkipPassesTwoBytesUnexamined: each of the six skips, taken at the last address (T33). -/
theorem witness_skips :
    ([0x3000, 0x4001, 0x5000, 0xE0A1].map fun w => after (·.pc) (startAt 0xFFE w)) =
      List.replicate 4 (some 0x1002) ∧
    after (·.pc) { startAt 0xFFE 0x9010 with v := State.reset.v.set 1 1 } = some 0x1002 ∧
    after (·.pc) { startAt 0xFFC 0xE09E with key := State.reset.key.set 0 true } =
      some 0x1000 := by decide

/-- The same not taken. -/
theorem witness_skips_not_taken :
    ([0x3001, 0x4000, 0x9000, 0xE09E].map fun w => after (·.pc) (startAt 0xFFE w)) =
      List.replicate 4 (some 0x1000) := by decide

/-- BcdStoresThreeDigits, RegisterDumpStoresTheRegisters, RegisterLoadReadsTheRegisters,
LoadAfterDumpRestoresTheRegisters, StoredBytesAreSeenByTheNextFetch: the last addresses in
range. -/
theorem witness_last_in_range : State.reset.mem.wf = true ∧ (0xFFD : Word).toNat + 2 ≤ 0xFFF ∧
    (0xFF0 : Word).toNat + (15 : Reg).val ≤ 0xFFF ∧
    after (fun t => t.mem.readBlock 0xFFD 3) { start 0xF133 [(1, 0x7B)] with i := 0xFFD } =
      some [1, 2, 3] ∧
    after (fun t => t.mem.read 0xFFF) { start 0xFF55 [(15, 0xAF)] with i := 0xFF0 } =
      some 0xAF ∧
    after (fun t => t.reg 15) { start 0xFF65 [(15, 0xAF)] with i := 0xFF0 } = some 0 := by decide

/-- The first of them as exec answers it, with two dumped registers side by side. -/
theorem witness_dump : (∃ t, exec (.regDump 15) { State.reset with i := 0xFF0 } = .next t) ∧
    (15 : Reg).val = (14 : Reg).val + 1 ∧ (15 : Reg).val ≤ (15 : Reg).val :=
  ⟨⟨_, rfl⟩, rfl, Nat.le_refl _⟩

/-- OutOfRangeAccessIsRaisedBeforeAnyWrite: the first addresses out of range. -/
theorem witness_first_out_of_range : 0xFFF < (0xFFE : Word).toNat + 2 ∧
    0xFFF < (0xFF1 : Word).toNat + (15 : Reg).val ∧ 0 < 1 ∧ 0xFFF < (0x1000 : Word).toNat + 1 - 1 ∧
    0xFFF < (0xFF2 : Word).toNat + 15 - 1 := by decide

/-- DrawXorsTheWrappedSprite and DrawingTwiceRestoresTheDisplay: no rows with I out of range, and
the highest sprite at the end of memory. -/
theorem witness_draw_range : (0 : Nat) ≤ 15 ∧ (0 = 0 ∨ (0x1234 : Word).toNat + 0 - 1 ≤ 0xFFF) ∧
    (15 = 0 ∨ (0xFF1 : Word).toNat + 15 - 1 ≤ 0xFFF) := by decide

/-- A pixel under a 1 bit that is on, one that is off, and one outside the sprite. -/
theorem witness_covered :
    let s := { startMem 0xD011 [] [0xC0] with fb := State.reset.fb.set 0 0x22 }
    Covered s 0 1 1 1 0 ∧ s.fb.pixel 1 0 = true ∧ Covered s 0 1 1 0 0 ∧ s.fb.pixel 0 0 = false ∧
      ¬ Covered s 0 1 1 5 0 := by
  refine ⟨⟨0, 1, by decide⟩, by decide, ⟨0, 0, by decide⟩, by decide, ?_⟩
  rintro ⟨r, c, hr, hc, hb, hx, -⟩
  obtain rfl : r = 0 := by omega
  obtain rfl : c = 5 := by
    have : (((0 : Byte).toNat + c) % 64) = 5 := hx.symm
    simp at this
    omega
  exact absurd hb (by decide)

/-- DrawChangesOnlyItsRowsAndColumns: a pixel that a draw changes. -/
theorem witness_draw_changes :
    ∃ t, exec (.drw 0 1 1) { State.reset with i := 0 } = .next t ∧
      t.fb.pixel 3 0 ≠ State.reset.fb.pixel 3 0 := ⟨_, rfl, by decide⟩

/-- DrawingTwiceRestoresTheDisplay with x = y = F: the flag written equals the old VF. -/
theorem witness_draw_twice : after (fun t => (t.reg 15, t.reg 3)) (startMem 0xDFF1 [] [0x80]) =
    some (0, 0) := by decide

/-- KeySkipsTestTheLowNibbleKey. -/
theorem witness_low_nibble : (15 : Reg).val = (0xFF : Byte).toNat % 16 := by decide

/-- KeyLoadStoresOrWaits: both clauses. -/
theorem witness_key_load :
    (∃ k : Reg, (State.reset.key.set 15 true)[k.val] = true ∧
      ∀ j : Reg, j < k → (State.reset.key.set 15 true)[j.val] = false) ∧
    ∀ k : Reg, State.reset.key[k.val] = false := by decide

/-- TicksLowerBothTimersToZero: E9, the sixth tick. -/
theorem witness_ticks :
    ({ State.reset with dt := 5, pending := List.replicate 6 .tick } : State).pending =
      List.replicate (5 + 1) .tick := rfl

/-- SetKeyWritesOneKey. -/
theorem witness_set_key :
    ({ State.reset with pending := [.setKey 15 true] } : State).pending = .setKey 15 true :: [] :=
  rfl

/-- LoadInitialisesTheMachine and TooLargeRomChangesNothing at the bound (E10), and
ResetIsAFreshLoadOfTheSameRom. -/
theorem witness_rom_sizes : (List.replicate 3584 (0 : Byte)).length ≤ 3584 ∧
    3584 < (List.replicate 3585 (0 : Byte)).length ∧ State.reset.romimg.length ≤ 3584 := by
  simp only [List.length_replicate]
  decide

/-- OnlyLoadAndResetClearALatchedError: both ways out. -/
theorem witness_latch_cleared : ∀ e ∈ [HostEvent.reset, .load [0x12, 0x00]],
    after (·.fault) { State.reset.raise .stackOverflow with pending := [e] } = some none := by
  decide

/-- SelfJumpRepeatsForEver. -/
theorem witness_self_jump : (startAt 0x200 0x1200).pending = [] ∧ (startAt 0x200 0x1200).atSelfJump :=
  ⟨rfl, rfl, rfl, 0x200, by decide, by decide⟩

/-- EveryStepKeepsTheInvariant. -/
theorem witness_invariant : (startAt 0xFFE 0x2ABC).Inv ∧
    ∃ t, step (startAt 0xFFE 0x2ABC) = .next t :=
  ⟨⟨by decide, by decide, by decide, by decide⟩, _, rfl⟩

/-- PlacedWordIsRunByTheNextStep, with PC outside memory before. -/
theorem witness_placed : ({ State.reset with pc := 0x1002 } : State).mem.wf = true ∧
    decode 0xDAB5 = .ok (.drw 10 11 5) := by decide

end Sys2Proof.Tests
end

section
/-! The scope family: how a step chooses the event it serves (00_scope.md R9, 60_exceptions.md
R265). -/

namespace Sys2Proof.Machine

/-- A listed CYCLE is the CYCLE (R265). -/
@[simp] theorem runEvent_cycle (s : State) : runEvent .cycle s = cycle s := rfl

/-- A lone pending CYCLE is served in the state that has no event left. -/
theorem step_of_lone_cycle (s : State) :
    step { s with pending := [.cycle] } = cycle { s with pending := [] } := by
  rw [step_of_event (e := .cycle) (rest := []) rfl, runEvent_cycle]

/-- An idle machine steps as one with a lone CYCLE pending: both run the CYCLE in the same state. -/
theorem step_idle_eq_step_lone_cycle {s : State} (h : s.pending = []) :
    step s = step { s with pending := [.cycle] } := by
  have hs : { s with pending := [] } = s := by rw [← h]
  rw [step_of_idle h, step_of_lone_cycle, hs]

/-- Settles O7: a step serves the head of the pending events, and an idle machine's step is the
CYCLE. -/
theorem stepServesTheOldestHostEvent : Obligations.StepServesTheOldestHostEvent :=
  fun s => ⟨step_idle_eq_step_lone_cycle, fun _ _ => step_of_event, runEvent_cycle s⟩

end Sys2Proof.Machine
end

section
/-! The state family: what each instruction does to the state, which elements it writes, and the
invariant of reachable states (10_state.md). -/

namespace Sys2Proof.Machine

open Sys2Proof.Claims

/-! ### What an instruction can do -/

/-- The updates by which `i` can lead from `s` to a next state, each with what the instruction
must be to make it. `exec_effect` ties them to `exec`. -/
inductive Effect (s : State) : Instr → State → Prop
  | setReg {i} (x : Reg) (b : Byte) (dest : writesReg x i) : Effect s i (s.setReg x b)
  | setRegFlag {i} (x : Reg) (b : Byte) (c : Bool) (dest : writesReg x i)
      (flag : writesReg 15 i) : Effect s i (s.setRegFlag x b c)
  | drawRandom (x : Reg) (kk b : Byte) :
      Effect s (.rnd x kk) (State.setReg { s with draws := s.draws + 1 } x b)
  | jump {i} (w : Word) (le : w.toNat ≤ 0x10FE) (jumps : writesPc i) : Effect s i (s.setPc w)
  | skip {i} (c : Bool) (skips : writesPc i) : Effect s i (s.skipIf c)
  | call (nnn : Addr12) (u : State) (push : s.push s.pc = some u) :
      Effect s (.call nnn) (u.setPc (zext12 nnn))
  | ret (w : Word) (u : State) (pop : s.pop = some (w, u)) : Effect s .ret (u.setPc w)
  | setI {i} (w : Word)
      (index : (∃ nnn, i = .ldI nnn) ∨ (∃ x, i = .addI x) ∨ ∃ x, i = .ldF x) :
      Effect s i (s.setI w)
  | setDt (x : Reg) (b : Byte) : Effect s (.ldDtVx x) (s.setDt b)
  | setSt (x : Reg) (b : Byte) : Effect s (.ldStVx x) (s.setSt b)
  | clear : Effect s .cls (s.setFb Display.clear)
  | sprite (x y : Reg) (n : Nat) (d : Display) (c : Bool) :
      Effect s (.drw x y n) ((s.setFb d).setReg regF (flagByte c))
  | wait (x : Reg) (m : Mode) : Effect s (.ldVxK x) (s.setMode m)
  | storeDigits (x : Reg) (a : Nat) (bs : List Byte) :
      Effect s (.ldB x) (s.setMem (s.mem.writeBlock a bs))
  | dump (x : Reg) (a : Nat) (bs : List Byte) (n : Nat) :
      Effect s (.regDump x) ((s.setMem (s.mem.writeBlock a bs)).advanceIndex n)
  | load (x : Reg) (bs : List Byte) (n : Nat) (len : bs.length = x.val + 1) :
      Effect s (.regLoad x) ((s.loadRegs bs).advanceIndex n)
  | raise {i} (k : FatalKind)
      (raises : i = .ret ∨ (∃ nnn, i = .call nnn) ∨ usesMemory i = true) :
      Effect s i (s.raise k)

variable {s t : State} {i : Instr}

theorem execRet_effect (s : State) : ∃ t, execRet s = .next t ∧ Effect s .ret t := by
  unfold execRet
  cases pop : s.pop with
  | none => exact ⟨_, rfl, .raise _ (.inl rfl)⟩
  | some p => exact ⟨_, rfl, .ret p.1 p.2 pop⟩

theorem execCall_effect (nnn : Addr12) (s : State) :
    ∃ t, execCall nnn s = .next t ∧ Effect s (.call nnn) t := by
  unfold execCall
  cases push : s.push s.pc with
  | none => exact ⟨_, rfl, .raise _ (.inr (.inl ⟨nnn, rfl⟩))⟩
  | some u => exact ⟨_, rfl, .call nnn u push⟩

theorem execLdVxK_effect (x : Reg) (s : State) :
    ∃ t, execLdVxK x s = .next t ∧ Effect s (.ldVxK x) t := by
  cases key : keySelect s.key with
  | none => exact ⟨_, execLdVxK_of_none key, .wait x _⟩
  | some k => exact ⟨_, execLdVxK_of_some key, .setReg x _ rfl⟩

/-- What the four memory instructions share: an update in range, a raise outside (R196). -/
theorem ranged_effect (uses : usesMemory i = true) (ok : Bool) {u : State} (eff : Effect s i u) :
    ∃ t, (if ok then .next u else .next (s.raise .addressOutOfRange) : Answer) = .next t ∧
      Effect s i t := by
  cases ok with
  | false => exact ⟨_, rfl, .raise _ (.inr (.inr uses))⟩
  | true => exact ⟨_, rfl, eff⟩

/-- The indexed jump goes no higher than 0xFFF + 0xFF (41_control_transfer.md R143). -/
theorem zext12_add_zext8_toNat_le (nnn : Addr12) (b : Byte) :
    (zext12 nnn + zext8 b).toNat ≤ 0x10FE := by
  have := nnn.isLt
  have := b.isLt
  rw [BitVec.toNat_add, zext12_toNat, zext8_toNat]
  omega

theorem zext12_toNat_le (nnn : Addr12) : (zext12 nnn).toNat ≤ 0x10FE := by
  have := nnn.isLt
  rw [zext12_toNat]
  omega

/-- Every instruction answers a next state, by one of the updates. -/
theorem exec_answers (i : Instr) (s : State) : ∃ t, exec i s = .next t ∧ Effect s i t := by
  cases i with
  | cls => exact ⟨_, rfl, .clear⟩
  | ret => exact execRet_effect s
  | jp nnn => exact ⟨_, rfl, .jump _ (zext12_toNat_le nnn) trivial⟩
  | call nnn => exact execCall_effect nnn s
  | jpV0 nnn => exact ⟨_, rfl, .jump _ (zext12_add_zext8_toNat_le nnn _) trivial⟩
  | seImm | sneImm | seReg | sneReg | skp | sknp => exact ⟨_, rfl, .skip _ trivial⟩
  | ldImm x | addImm x | ldReg x | orReg x | andReg x | xorReg x | ldVxDt x =>
    exact ⟨_, rfl, .setReg x _ rfl⟩
  | addReg x | sub x | shr x | subn x | shl x =>
    exact ⟨_, rfl, .setRegFlag x _ _ (.inl rfl) (.inr rfl)⟩
  | rnd x kk => exact ⟨_, rfl, .drawRandom x kk _⟩
  | ldI nnn => exact ⟨_, rfl, .setI _ (.inl ⟨nnn, rfl⟩)⟩
  | addI x => exact ⟨_, rfl, .setI _ (.inr (.inl ⟨x, rfl⟩))⟩
  | ldF x => exact ⟨_, rfl, .setI _ (.inr (.inr ⟨x, rfl⟩))⟩
  | ldVxK x => exact execLdVxK_effect x s
  | ldDtVx x => exact ⟨_, rfl, .setDt x _⟩
  | ldStVx x => exact ⟨_, rfl, .setSt x _⟩
  | drw x y n => exact ranged_effect rfl _ (.sprite x y n _ _)
  | ldB x => exact ranged_effect rfl _ (.storeDigits x _ _)
  | regDump x => exact ranged_effect rfl _ (.dump x _ _ _)
  | regLoad x => exact ranged_effect rfl _ (.load x _ _ (readBlock_length _ _ _))

theorem exec_effect (h : exec i s = .next t) : Effect s i t := by
  obtain ⟨u, hu, eff⟩ := exec_answers i s
  obtain rfl : u = t := Host.Outcome.next.inj (hu.symm.trans h)
  exact eff

/-! ### The stack operations -/

theorem push_frame {w : Word} {u : State} (h : s.push w = some u) :
    ∃ stack sp, u = { s with stack := stack, sp := sp } := by
  obtain ⟨-, rfl⟩ := (push_eq_some s).1 h
  exact ⟨_, _, rfl⟩

theorem pop_frame {w : Word} {u : State} (h : s.pop = some (w, u)) :
    ∃ sp, u = { s with sp := sp } := by
  obtain ⟨-, -, rfl⟩ := (pop_eq_some s).1 h
  exact ⟨_, rfl⟩

/-! ### The listed writers -/

theorem reg_setReg_of_ne {r x : Reg} {b : Byte} (h : r ≠ x) : (s.setReg x b).reg r = s.reg r := by
  rw [reg_setReg, if_neg h]

/-- A register keeps its value unless the instruction names it as a destination (R20, R21). -/
theorem Effect.keeps_reg (eff : Effect s i t) {r : Reg} (h : ¬ writesReg r i) :
    t.reg r = s.reg r := by
  cases eff with
  | setReg x b dest => exact reg_setReg_of_ne fun e => h (by rwa [e])
  | setRegFlag x b c dest flag =>
    have off_flag : r ≠ 15 := fun e => h (by rwa [e])
    have off_dest : r ≠ x := fun e => h (by rwa [e])
    exact (reg_setReg_of_ne off_flag).trans (reg_setReg_of_ne off_dest)
  | drawRandom => exact reg_setReg_of_ne h
  | sprite => exact reg_setReg_of_ne h
  | load x bs n len =>
    have past : ¬ r.val < bs.length := fun lt => h (Nat.lt_succ_iff.1 (lt.trans_eq len))
    rw [advanceIndex_reg, reg_loadRegs, if_neg past]
  | call nnn u push =>
    obtain ⟨stack, sp, rfl⟩ := push_frame push
    rfl
  | ret w u pop =>
    obtain ⟨sp, rfl⟩ := pop_frame pop
    rfl
  | skip => exact skipIf_reg _ _ _
  | dump => exact advanceIndex_reg _ _ _
  | jump | setI | setDt | setSt | clear | wait | storeDigits | raise => rfl

/-- Settles O55, update by update: each writes no element but those of its own instructions. -/
theorem eachElementHasOnlyItsListedWriters : Obligations.EachElementHasOnlyItsListedWriters := by
  intro s t i h
  have eff := exec_effect h
  have regs : ∀ r, t.reg r ≠ s.reg r → writesReg r i :=
    fun r changed => by_contra fun no => changed (eff.keeps_reg no)
  cases eff with
  | setReg | setRegFlag | drawRandom | sprite => simpa using regs
  | load x bs n len => cases inc : s.cfg.indexInc <;> simpa [inc] using regs
  | dump x a bs n => cases inc : s.cfg.indexInc <;> simp [inc]
  | jump w le jumps => simp [jumps]
  | skip c skips => simp [skips]
  | call nnn u push =>
    obtain ⟨stack, sp, rfl⟩ := push_frame push
    simpa [writesPc] using regs
  | ret w u pop =>
    obtain ⟨sp, rfl⟩ := pop_frame pop
    simpa [writesPc] using regs
  | setI w index => rcases index with ⟨nnn, rfl⟩ | ⟨x, rfl⟩ | ⟨x, rfl⟩ <;> simp
  | raise k raises => simp [raises]
  | setDt | setSt | clear | wait | storeDigits => simp

theorem flagByte_eq_zero_or_one (c : Bool) : flagByte c = 0 ∨ flagByte c = 1 := by
  cases c with
  | false => exact .inl rfl
  | true => exact .inr rfl

/-- A flag stored last is what VF holds, with VF as the destination too (R170). -/
theorem reg15_of_setRegFlag {x : Reg} {b : Byte} {c : Bool}
    (h : (.next (s.setRegFlag x b c) : Answer) = .next t) : t.reg 15 = 0 ∨ t.reg 15 = 1 := by
  obtain rfl := Host.Outcome.next.inj h
  rw [reg_setRegFlag, if_pos rfl]
  exact flagByte_eq_zero_or_one c

/-- DRW leaves the collision in VF, or raises and keeps it (46_display.md R212). -/
theorem reg15_of_drw {x y : Reg} {n : Nat} (h : exec (.drw x y n) s = .next t) :
    t.reg 15 = 0 ∨ t.reg 15 = 1 ∨ (t.fault ≠ none ∧ t.reg 15 = s.reg 15) := by
  by_cases range : n = 0 ∨ s.i.toNat + n ≤ 4096
  · obtain rfl := Host.Outcome.next.inj ((execDrw_of_range x y range).symm.trans h)
    rw [reg_setReg, if_pos rfl]
    exact (flagByte_eq_zero_or_one _).imp_right .inl
  · obtain rfl := Host.Outcome.next.inj
      ((execDrw_of_out (s := s) x y (n := n) (by omega) (by omega)).symm.trans h)
    exact .inr (.inr ⟨nofun, rfl⟩)

/-- Settles O30: the flag writers by the flag they store, every other instruction because VF is
not a destination of it. -/
theorem vfHasOnlyItsListedWriters : Obligations.VfHasOnlyItsListedWriters := by
  intro s t i _ h
  have keeps : ¬ writesReg 15 i → t.reg 15 = s.reg 15 := (exec_effect h).keeps_reg
  cases i with
  | addReg | sub | shr | subn | shl => exact (reg15_of_setRegFlag h).imp_right .inl
  | drw => exact reg15_of_drw h
  | ldImm | addImm | rnd | ldReg | orReg | andReg | xorReg | ldVxDt | ldVxK =>
    exact fun other => keeps other.symm
  | regLoad x => exact fun other => keeps fun le => other (le_antisymm (Fin.le_last x) le)
  | cls | ret | jp | call | seImm | sneImm | seReg | sneReg | ldI | jpV0 | skp | sknp | ldDtVx
  | ldStVx | addI | ldF | ldB | regDump => exact keeps not_false

/-! ### The invariant of reachable states -/

/-- The invariant speaks of MEM, PC, STACK and ROMIMG only. -/
theorem State.Inv.of_eq (inv : s.Inv) (mem : t.mem = s.mem) (pc : t.pc = s.pc)
    (stack : t.stack = s.stack) (romimg : t.romimg = s.romimg) : t.Inv where
  mem_wf := mem ▸ inv.mem_wf
  pc_le := pc ▸ inv.pc_le
  stack_le := stack ▸ inv.stack_le
  romimg_le := romimg ▸ inv.romimg_le

theorem State.Inv.setPc (inv : s.Inv) {w : Word} (le : w.toNat ≤ 0x10FE) : (s.setPc w).Inv :=
  ⟨inv.mem_wf, le, inv.stack_le, inv.romimg_le⟩

theorem State.Inv.setMem (inv : s.Inv) {m : Memory} (wf : m.wf = true) : (s.setMem m).Inv :=
  ⟨wf, inv.pc_le, inv.stack_le, inv.romimg_le⟩

theorem State.Inv.advanceIndex (inv : s.Inv) (n : Nat) : (s.advanceIndex n).Inv :=
  inv.of_eq (advanceIndex_mem s n) (advanceIndex_pc s n) (advanceIndex_stack s n)
    (advanceIndex_romimg s n)

/-- PC advances by 2 without a wrap. -/
theorem add_two_toNat {w : Word} (le : w.toNat ≤ 0x1000) : (w + 2).toNat = w.toNat + 2 := by
  rw [BitVec.toNat_add, show (2 : Word).toNat = 2 from rfl]
  omega

/-- A skip goes no higher than 0x1002 (42_skips.md R154). -/
theorem State.Inv.skipIf (inv : s.Inv) (pc : s.pc.toNat ≤ 0x1000) (c : Bool) :
    (s.skipIf c).Inv := by
  cases c with
  | false => exact inv
  | true => exact inv.setPc (by rw [add_two_toNat pc]; omega)

theorem State.Inv.push (inv : s.Inv) {w : Word} {u : State} (le : w.toNat ≤ 0x1000)
    (h : s.push w = some u) : u.Inv := by
  obtain ⟨free, rfl⟩ := (push_eq_some s).1 h
  refine ⟨inv.mem_wf, inv.pc_le, fun k => ?_, inv.romimg_le⟩
  rw [Vector.getElem_set]
  split
  · exact le
  · exact inv.stack_le k

theorem State.Inv.pop (inv : s.Inv) {w : Word} {u : State} (h : s.pop = some (w, u)) :
    u.Inv ∧ w.toNat ≤ 0x1000 := by
  obtain ⟨used, rfl, rfl⟩ := (pop_eq_some s).1 h
  exact ⟨inv.of_eq rfl rfl rfl rfl, inv.stack_le ⟨s.sp.val - 1, by omega⟩⟩

/-- An instruction keeps the invariant: its fetch left PC at 0x1000 at most (40_cycle.md R123). -/
theorem Effect.keeps_inv (eff : Effect s i t) (inv : s.Inv) (pc : s.pc.toNat ≤ 0x1000) :
    t.Inv := by
  cases eff with
  | jump w le jumps => exact inv.setPc le
  | skip c skips => exact inv.skipIf pc c
  | call nnn u push => exact (inv.push pc push).setPc (zext12_toNat_le nnn)
  | ret w u pop =>
    obtain ⟨inv', le⟩ := inv.pop pop
    exact inv'.setPc (by omega)
  | storeDigits x a bs => exact inv.setMem (writeBlock_wf inv.mem_wf a bs)
  | dump x a bs n => exact (inv.setMem (writeBlock_wf inv.mem_wf a bs)).advanceIndex n
  | load x bs n len => exact (inv.of_eq (t := s.loadRegs bs) rfl rfl rfl rfl).advanceIndex n
  | setReg | setRegFlag | drawRandom | setI | setDt | setSt | clear | sprite | wait | raise =>
    exact inv.of_eq rfl rfl rfl rfl

theorem decodeExecute_keeps_inv {w : Word} (inv : s.Inv) (pc : s.pc.toNat ≤ 0x1000)
    (h : decodeExecute w s = .next t) : t.Inv := by
  have answered : ∀ r, (s.answer r).Inv := fun r => inv.of_eq rfl rfl rfl rfl
  cases dec : decode w with
  | ok i =>
    rw [decodeExecute_of_ok dec] at h
    exact (exec_effect h).keeps_inv (answered .ok) pc
  | error e =>
    rw [decodeExecute_of_error dec] at h
    exact Host.Outcome.next.inj h ▸ answered _

theorem keyWait_keeps_inv (inv : s.Inv) (x : Reg) : (keyWait x s).Inv := by
  cases key : keySelect s.key with
  | none => rwa [keyWait_of_none key]
  | some k =>
    rw [keyWait_of_some key]
    exact inv.of_eq rfl rfl rfl rfl

/-- A CYCLE keeps the invariant, phase by phase (40_cycle.md R120). -/
theorem cycle_keeps_inv (inv : s.Inv) (h : cycle s = .next t) : t.Inv := by
  cases latch : s.fault with
  | some k =>
    obtain rfl := Host.Outcome.next.inj ((cycle_of_latched latch).symm.trans h)
    exact inv.of_eq rfl rfl rfl rfl
  | none =>
    cases mode : s.mode with
    | awaitingKey x =>
      obtain rfl := Host.Outcome.next.inj ((cycle_of_waiting latch mode).symm.trans h)
      exact (keyWait_keeps_inv inv x).of_eq rfl rfl rfl rfl
    | running =>
      rcases Nat.lt_or_ge 0xFFE s.pc.toNat with out | inside
      · obtain rfl := Host.Outcome.next.inj ((cycle_of_fetch_out latch mode out).symm.trans h)
        exact inv.of_eq rfl rfl rfl rfl
      · rw [cycle_of_fetch latch mode inside] at h
        have advanced : (s.pc + 2).toNat ≤ 0x1000 := by
          rw [add_two_toNat (by omega)]
          omega
        exact decodeExecute_keeps_inv (inv.setPc (by omega)) advanced h

/-- INIT establishes memory, PC and STACK whatever they were (70_reset_and_hazards.md R303). -/
theorem init_inv {rom : List Byte} (rom_le : rom.length ≤ 3584) (romimg : s.romimg.length ≤ 3584) :
    (s.init rom).Inv where
  mem_wf := image_wf 0x200 rom (by omega)
  pc_le := by simp
  stack_le := by simp
  romimg_le := romimg

theorem load_keeps_inv (inv : s.Inv) (rom : List Byte) : (load rom s).Inv := by
  rcases Nat.lt_or_ge 3584 rom.length with large | fits
  · rw [load_of_gt large]
    exact inv.of_eq rfl rfl rfl rfl
  · rw [load_of_le fits]
    exact State.Inv.of_eq (init_inv (s := { s with romimg := rom }) fits fits) rfl rfl rfl rfl

theorem runEvent_keeps_inv (e : HostEvent) (inv : s.Inv) (h : runEvent e s = .next t) : t.Inv := by
  cases e with
  | cycle => exact cycle_keeps_inv inv h
  | load rom => exact Host.Outcome.next.inj h ▸ load_keeps_inv inv rom
  | reset =>
    obtain rfl := Host.Outcome.next.inj h
    exact init_inv inv.romimg_le inv.romimg_le
  | tick | setKey =>
    obtain rfl := Host.Outcome.next.inj h
    exact inv.of_eq rfl rfl rfl rfl

/-- Settles O57: a step serves a CYCLE or the oldest pending event, and both keep the
invariant. -/
theorem everyStepKeepsTheInvariant : Obligations.EveryStepKeepsTheInvariant := by
  intro s t inv h
  cases pending : s.pending with
  | nil => exact cycle_keeps_inv inv (step_of_idle pending ▸ h)
  | cons e rest =>
    exact runEvent_keeps_inv e (s := { s with pending := rest }) (inv.of_eq rfl rfl rfl rfl)
      (step_of_event pending ▸ h)

/-! ### A latched error -/

theorem cycle_keeps_latch {k : FatalKind} (latch : s.fault = some k) (h : cycle s = .next t) :
    t.fault = some k := by
  obtain rfl := Host.Outcome.next.inj ((cycle_of_latched latch).symm.trans h)
  exact latch

/-- The events that clear a latch are RESET and a LOAD that fits (60_exceptions.md R259). -/
theorem event_of_latch_cleared {k : FatalKind} {e : HostEvent} (latch : s.fault = some k)
    (h : runEvent e s = .next t) (cleared : t.fault ≠ some k) :
    e = .reset ∨ ∃ rom, e = .load rom ∧ rom.length ≤ 3584 := by
  cases e with
  | reset => exact .inl rfl
  | load rom =>
    rcases Nat.lt_or_ge 3584 rom.length with large | fits
    · obtain rfl := Host.Outcome.next.inj h
      rw [load_of_gt large] at cleared
      exact absurd latch cleared
    · exact .inr ⟨rom, rfl, fits⟩
  | cycle => exact absurd (cycle_keeps_latch latch h) cleared
  | tick | setKey =>
    obtain rfl := Host.Outcome.next.inj h
    exact absurd latch cleared

/-- Settles O54: an idle step's CYCLE keeps the latch, and so does every pending event but the
two. -/
theorem onlyLoadAndResetClearALatchedError : Obligations.OnlyLoadAndResetClearALatchedError := by
  intro s t k latch h cleared
  cases pending : s.pending with
  | nil => exact absurd (cycle_keeps_latch latch (step_of_idle pending ▸ h)) cleared
  | cons e rest =>
    rcases event_of_latch_cleared (s := { s with pending := rest }) latch
      (step_of_event pending ▸ h) cleared with rfl | ⟨rom, rfl, fits⟩
    · exact .inl ⟨rest, rfl⟩
    · exact .inr ⟨rom, rest, rfl, fits⟩

/-! ### Power-on -/

/-- Settles O58. Nothing is stored, so memory is canonical, and no ROM is retained. -/
theorem powerOnMeetsTheInvariant : Obligations.PowerOnMeetsTheInvariant where
  mem_wf := rfl
  pc_le := by decide
  stack_le := by decide
  romimg_le := Nat.zero_le _

/-- Settles O50: memory with nothing stored reads as FONT and zeroes, and the display is the
cleared one. -/
theorem powerOnStateIsAsListed : Obligations.PowerOnStateIsAsListed :=
  ⟨by decide, rfl, rfl, rfl, by decide, rfl, rfl, fun _ => background_of_lt,
    fun _ => background_of_ge, pixel_clear, by decide, rfl, rfl, rfl⟩

end Sys2Proof.Machine
end

section
/-! The memory family: the bytes an instruction stores are the ones a fetch sees (20_memory.md
R72). -/

namespace Sys2Proof.Machine

variable {s t : State} {x : Reg}

/-- After a register dump in range, the byte at I + r is register r, with the old I
(45_index_memory.md R194). -/
theorem read_of_regDump {r : Reg} (wf : s.mem.wf = true) (range : s.i.toNat + x.val ≤ 0xFFF)
    (dump : exec (.regDump x) s = .next t) (dumped : r.val ≤ x.val) :
    t.mem.read (s.i.toNat + r.val) = s.reg r := by
  obtain rfl := Host.Outcome.next.inj ((execRegDump_of_range x (by omega)).symm.trans dump)
  have last : s.i.toNat + (s.dumpBytes x).length ≤ 4096 := by
    rw [dumpBytes_length]
    omega
  have inside : s.i.toNat ≤ s.i.toNat + r.val ∧
      s.i.toNat + r.val < s.i.toNat + (s.dumpBytes x).length := by
    rw [dumpBytes_length]
    omega
  rw [advanceIndex_mem, setMem_mem, read_writeBlock wf _ _ _ last, if_pos inside,
    Nat.add_sub_cancel_left, dumpBytes_getD s x r dumped]

/-- Settles O38: the fetch reads the two addresses just dumped, and the second is still in
memory. -/
theorem storedBytesAreSeenByTheNextFetch : Obligations.StoredBytesAreSeenByTheNextFetch := by
  intro s t x r r' wf range dump adjacent dumped' pc at_r
  have high : t.mem.read pc.toNat = s.reg r := by
    rw [at_r]
    exact read_of_regDump wf range dump (by omega)
  have low : t.mem.read (pc.toNat + 1) = s.reg r' := by
    rw [at_r, Nat.add_assoc, ← adjacent]
    exact read_of_regDump wf range dump dumped'
  refine (fetch_eq_some _).2 ⟨?_, ?_, rfl⟩
  · show pc.toNat ≤ 0xFFE
    omega
  · show _ = wordOfBytes (t.mem.read pc.toNat) (t.mem.read (pc.toNat + 1))
    rw [high, low, wordOfBytes]

end Sys2Proof.Machine
end

section
/-! The encoding family: the encoder and the decoder are inverse to each other, and the words the
decoder refuses are those that match no row of the opcode table (30_encoding.md R92 to R98). -/

namespace Sys2Proof

variable {w : Word} {i : Instr} {e : DecodeError} {op low n : Nat}

/-! ### A word is made of its fields -/

theorem encAddr_fields (hop : fieldOp w = op) : encAddr op (fieldNnn w) = w := by
  have := w.isLt
  subst hop
  apply BitVec.eq_of_toNat_eq
  simp only [encAddr, fieldOp, fieldNnn, bits, BitVec.toNat_ofNat]
  omega

theorem encRegImm_fields (hop : fieldOp w = op) : encRegImm op (fieldX w) (fieldKk w) = w := by
  have := w.isLt
  subst hop
  apply BitVec.eq_of_toNat_eq
  simp only [encRegImm, fieldOp, fieldX, fieldKk, bits, BitVec.toNat_ofNat, Fin.val_ofNat]
  omega

theorem encRegReg_fields (hop : fieldOp w = op) (hn : fieldN w = n) :
    encRegReg op (fieldX w) (fieldY w) n = w := by
  have := w.isLt
  subst hop hn
  apply BitVec.eq_of_toNat_eq
  simp only [encRegReg, fieldOp, fieldX, fieldY, fieldN, bits, BitVec.toNat_ofNat, Fin.val_ofNat]
  omega

theorem encRegSub_fields (hop : fieldOp w = op) (hlow : bits w 7 0 = low) :
    encRegSub op (fieldX w) low = w := by
  have := w.isLt
  subst hop hlow
  apply BitVec.eq_of_toNat_eq
  simp only [encRegSub, fieldOp, fieldX, bits, BitVec.toNat_ofNat, Fin.val_ofNat]
  omega

theorem fieldOp_lt (w : Word) : fieldOp w < 16 := Nat.mod_lt _ (by decide)

theorem fieldN_lt (w : Word) : fieldN w < 16 := Nat.mod_lt _ (by decide)

/-- The low byte of a word in a register format is its two low nibbles. -/
theorem lowBits_encRegReg (op : Nat) (x y : Reg) (hn : n < 16) :
    bits (encRegReg op x y n) 7 0 = y.val * 16 + n := by
  have := y.isLt
  simp only [bits, encRegReg, BitVec.toNat_ofNat]
  omega

/-! ### Decoding an encoding -/

/-- The decoder reads from each format the operands that the encoder put there. -/
theorem decode_encode (wf : i.WellFormed) : decode (encode i) = .ok i := by
  cases i with
  | cls | ret => rfl
  | jp | call | ldI | jpV0 => simp [encode, decode]
  | seImm | sneImm | ldImm | addImm | rnd => simp [encode, decode]
  | seReg | sneReg => simp [encode, decode]
  | ldReg | orReg | andReg | xorReg | addReg | sub | shr | subn | shl =>
    simp [encode, decode, decodeAlu]
  | drw x y n =>
    have hn : n < 16 := Nat.lt_succ_of_le (of_decide_eq_true wf)
    simp [encode, decode, hn]
  | skp | sknp => simp [encode, decode, decodeKey]
  | ldVxDt | ldVxK | ldDtVx | ldStVx | addI | ldF | ldB | regDump | regLoad =>
    simp [encode, decode, decodeMisc]

/-- Settles O1, by the format of each instruction. -/
theorem decodeOfEncodeIsTheInstruction : Obligations.DecodeOfEncodeIsTheInstruction :=
  fun _ => decode_encode

/-! ### Encoding what a word decodes to -/

theorem encode_of_decodeZero (h : decodeZero w = .ok i) : i.WellFormed ∧ encode i = w := by
  unfold decodeZero at h
  split at h
  next hw => cases h; exact ⟨rfl, hw.symm⟩
  split at h
  next hw => cases h; exact ⟨rfl, hw.symm⟩
  next => cases h

/-- Every arm of family 8 is a register format with the sub-opcode it was found by. -/
theorem encode_of_decodeAlu (hop : fieldOp w = 0x8) (h : decodeAlu w = .ok i) :
    i.WellFormed ∧ encode i = w := by
  unfold decodeAlu at h
  split at h <;> cases h
  all_goals exact ⟨rfl, encRegReg_fields hop ‹_›⟩

theorem encode_of_decodeKey (hop : fieldOp w = 0xE) (h : decodeKey w = .ok i) :
    i.WellFormed ∧ encode i = w := by
  unfold decodeKey at h
  split at h <;> cases h
  all_goals exact ⟨rfl, encRegSub_fields hop ‹_›⟩

theorem encode_of_decodeMisc (hop : fieldOp w = 0xF) (h : decodeMisc w = .ok i) :
    i.WellFormed ∧ encode i = w := by
  unfold decodeMisc at h
  split at h <;> cases h
  all_goals exact ⟨rfl, encRegSub_fields hop ‹_›⟩

theorem encode_of_decode (h : decode w = .ok i) : i.WellFormed ∧ encode i = w := by
  unfold decode at h
  split at h
  next => exact encode_of_decodeZero h
  next hop => cases h; exact ⟨rfl, encAddr_fields hop⟩
  next hop => cases h; exact ⟨rfl, encAddr_fields hop⟩
  next hop => cases h; exact ⟨rfl, encRegImm_fields hop⟩
  next hop => cases h; exact ⟨rfl, encRegImm_fields hop⟩
  next hop =>
    split at h
    next hn => cases h; exact ⟨rfl, encRegReg_fields hop hn⟩
    next => cases h
  next hop => cases h; exact ⟨rfl, encRegImm_fields hop⟩
  next hop => cases h; exact ⟨rfl, encRegImm_fields hop⟩
  next hop => exact encode_of_decodeAlu hop h
  next hop =>
    split at h
    next hn => cases h; exact ⟨rfl, encRegReg_fields hop hn⟩
    next => cases h
  next hop => cases h; exact ⟨rfl, encAddr_fields hop⟩
  next hop => cases h; exact ⟨rfl, encAddr_fields hop⟩
  next hop => cases h; exact ⟨rfl, encRegImm_fields hop⟩
  next hop =>
    cases h
    exact ⟨decide_eq_true (Nat.le_of_lt_succ (fieldN_lt w)), encRegReg_fields hop rfl⟩
  next hop => exact encode_of_decodeKey hop h
  next hop => exact encode_of_decodeMisc hop h
  next => cases h

/-- Settles O2: the decoder's case gives the fixed fields, and the operands are the other ones. -/
theorem encodeOfDecodeIsTheWord : Obligations.EncodeOfDecodeIsTheWord :=
  fun _ _ => encode_of_decode

/-! ### The words without a meaning -/

/-- R95's list, in the fields of a word. `decode_eq_error_iff` ties it to the decoder. -/
def Unlisted (w : Word) : Prop :=
  (fieldOp w = 0x0 ∧ ¬(w = 0x00E0 ∨ w = 0x00EE)) ∨
  (fieldOp w = 0x5 ∧ fieldN w ≠ 0) ∨
  (fieldOp w = 0x8 ∧ fieldN w ∈ [0x8, 0x9, 0xA, 0xB, 0xC, 0xD, 0xF]) ∨
  (fieldOp w = 0x9 ∧ fieldN w ≠ 0) ∨
  (fieldOp w = 0xE ∧ bits w 7 0 ∉ [0x9E, 0xA1]) ∨
  (fieldOp w = 0xF ∧ bits w 7 0 ∉ [0x07, 0x0A, 0x15, 0x18, 0x1E, 0x29, 0x33, 0x55, 0x65])

/-- A strict pattern refuses where its fixed field differs. -/
theorem ite_ok_eq_error_iff {p : Prop} [Decidable p] {d : Except DecodeError Instr} :
    (if p then .ok i else d) = .error e ↔ ¬p ∧ d = .error e := by
  split <;> simp [*]

theorem decodeZero_eq_error_iff :
    decodeZero w = .error e ↔ ¬(w = 0x00E0 ∨ w = 0x00EE) ∧ .unknownOpcode w = e := by
  simp [decodeZero, ite_ok_eq_error_iff, and_assoc]

theorem decodeAlu_eq_error_iff :
    decodeAlu w = .error e ↔
      fieldN w ∈ [0x8, 0x9, 0xA, 0xB, 0xC, 0xD, 0xF] ∧ .unknownOpcode w = e := by
  have := fieldN_lt w
  unfold decodeAlu
  generalize fieldN w = n at *
  interval_cases n <;> simp

theorem decodeKey_eq_error_iff :
    decodeKey w = .error e ↔ bits w 7 0 ∉ [0x9E, 0xA1] ∧ .unknownOpcode w = e := by
  unfold decodeKey
  split <;> simp_all

theorem decodeMisc_eq_error_iff :
    decodeMisc w = .error e ↔
      bits w 7 0 ∉ [0x07, 0x0A, 0x15, 0x18, 0x1E, 0x29, 0x33, 0x55, 0x65] ∧
        .unknownOpcode w = e := by
  unfold decodeMisc
  split <;> simp_all

/-- Family by family, the decoder refuses the words of R95, and by name. -/
theorem decode_eq_error_iff : decode w = .error e ↔ Unlisted w ∧ .unknownOpcode w = e := by
  have := fieldOp_lt w
  unfold decode Unlisted
  generalize fieldOp w = op at *
  interval_cases op <;> simp [ite_ok_eq_error_iff, decodeZero_eq_error_iff,
    decodeAlu_eq_error_iff, decodeKey_eq_error_iff, decodeMisc_eq_error_iff]

theorem decode_eq_unknownOpcode_iff : decode w = .error (.unknownOpcode w) ↔ Unlisted w := by
  rw [decode_eq_error_iff, and_iff_left rfl]

/-- The words of family 0 that decode, by their nibbles (R95's first clause). -/
theorem encRegReg_zero_eq_cls_or_ret_iff (x y : Reg) (hn : n < 16) :
    encRegReg 0 x y n = 0x00E0 ∨ encRegReg 0 x y n = 0x00EE ↔
      x.val = 0 ∧ y.val = 0xE ∧ (n = 0 ∨ n = 0xE) := by
  have := x.isLt
  have := y.isLt
  simp only [← BitVec.toNat_inj, encRegReg, BitVec.ofNat_eq_ofNat, BitVec.toNat_ofNat]
  omega

/-- Settles O4: four nibbles make a word of the register format, whose fields they are. -/
theorem unknownWordsAreTheListedOnes : Obligations.UnknownWordsAreTheListedOnes := by
  intro op x y n hop hx hy hn w
  lift x to Reg using hx
  lift y to Reg using hy
  have hw : w = encRegReg op x y n := rfl
  rw [decode_eq_unknownOpcode_iff, Unlisted, hw, fieldOp_encRegReg x y hop hn,
    fieldN_encRegReg op x y hn, lowBits_encRegReg op x y hn]
  refine or_congr_left (and_congr_right ?_)
  rintro rfl
  exact not_congr (encRegReg_zero_eq_cls_or_ret_iff x y hn)

/-! ### The opcode table -/

open Laws.TableRow in
/-- Every instruction's word matches the row of its mnemonic. -/
theorem tableRow_holds : ∀ i : Instr, Statement i
  | .cls => cls
  | .ret => ret
  | .jp nnn => jp nnn
  | .call nnn => call nnn
  | .seImm x kk => seImm x kk
  | .sneImm x kk => sneImm x kk
  | .seReg x y => seReg x y
  | .ldImm x kk => ldImm x kk
  | .addImm x kk => addImm x kk
  | .ldReg x y => ldReg x y
  | .orReg x y => orReg x y
  | .andReg x y => andReg x y
  | .xorReg x y => xorReg x y
  | .addReg x y => addReg x y
  | .sub x y => sub x y
  | .shr x y => shr x y
  | .subn x y => subn x y
  | .shl x y => shl x y
  | .sneReg x y => sneReg x y
  | .ldI nnn => ldI nnn
  | .jpV0 nnn => jpV0 nnn
  | .rnd x kk => rnd x kk
  | .drw x y n => drw x y n
  | .skp x => skp x
  | .sknp x => sknp x
  | .ldVxDt x => ldVxDt x
  | .ldVxK x => ldVxK x
  | .ldDtVx x => ldDtVx x
  | .ldStVx x => ldStVx x
  | .addI x => addI x
  | .ldF x => ldF x
  | .ldB x => ldB x
  | .regDump x => regDump x
  | .regLoad x => regLoad x

/-- A word that decodes is an encoding, and so matches its instruction's row. -/
theorem row_of_decode (h : decode w = .ok i) :
    ∃ row ∈ opcodeTable, row.mnemonic = i.mnemonic ∧ w &&& row.mask = row.pattern := by
  obtain ⟨wf, rfl⟩ := encode_of_decode h
  obtain ⟨row, mem, name, hit⟩ := tableRow_holds i wf
  exact ⟨row, mem, name, eq_of_beq hit⟩

/-- A pattern is itself a word with a meaning. -/
theorem pattern_not_unlisted : ∀ row ∈ opcodeTable, ¬ Unlisted row.pattern := by
  unfold Unlisted
  decide

/-- Every mask fixes op, and in the families that R95 names also the field it speaks of. -/
theorem mask_of_family : ∀ row ∈ opcodeTable,
    row.mask &&& 0xF000 = 0xF000 ∧
    (fieldOp row.pattern = 0x0 → row.mask = 0xFFFF) ∧
    (fieldOp row.pattern ∈ [0x5, 0x8, 0x9] → row.mask = 0xF00F) ∧
    (fieldOp row.pattern ∈ [0xE, 0xF] → row.mask = 0xF0FF) := by
  decide

theorem fieldOp_and_F000 (w : Word) : fieldOp (w &&& 0xF000) = fieldOp w := by
  have := fieldOp_lt w
  rw [and_F000, fieldOp, bits, BitVec.toNat_ofNat]
  omega

theorem fieldN_and_F00F (w : Word) : fieldN (w &&& 0xF00F) = fieldN w := by
  have := fieldN_lt w
  rw [and_F00F, fieldN, bits, BitVec.toNat_ofNat]
  omega

theorem lowBits_and_F0FF (w : Word) : bits (w &&& 0xF0FF) 7 0 = bits w 7 0 := by
  rw [and_F0FF]
  simp only [bits, BitVec.toNat_ofNat]
  omega

theorem fieldOp_and {m : Word} (hm : m &&& 0xF000 = 0xF000) : fieldOp (w &&& m) = fieldOp w := by
  rw [← fieldOp_and_F000, BitVec.and_assoc, hm, fieldOp_and_F000]

/-- What R95 says of a word it says of the pattern of any row the word matches: they agree in the
fields that R95 looks at. -/
theorem Unlisted.pattern {row : OpcodeRow} (unlisted : Unlisted w) (mem : row ∈ opcodeTable)
    (hit : w &&& row.mask = row.pattern) : Unlisted row.pattern := by
  obtain ⟨mask_op, mask_all, mask_nibble, mask_low⟩ := mask_of_family row mem
  have op_eq : fieldOp row.pattern = fieldOp w := by rw [← hit, fieldOp_and mask_op]
  have all (h : fieldOp w = 0x0) : row.pattern = w := by
    rw [← hit, mask_all (op_eq.trans h)]
    exact BitVec.and_allOnes
  have nibble (h : fieldOp w ∈ [0x5, 0x8, 0x9]) : fieldN row.pattern = fieldN w := by
    rw [← hit, mask_nibble (op_eq ▸ h), fieldN_and_F00F]
  have low (h : fieldOp w ∈ [0xE, 0xF]) : bits row.pattern 7 0 = bits w 7 0 := by
    rw [← hit, mask_low (op_eq ▸ h), lowBits_and_F0FF]
  rw [Unlisted, op_eq]
  rcases unlisted with ⟨h, hw⟩ | ⟨h, hn⟩ | ⟨h, hn⟩ | ⟨h, hn⟩ | ⟨h, hl⟩ | ⟨h, hl⟩
  · exact .inl ⟨h, (all h).symm ▸ hw⟩
  · exact .inr (.inl ⟨h, (nibble (by simp [h])).symm ▸ hn⟩)
  · exact .inr (.inr (.inl ⟨h, (nibble (by simp [h])).symm ▸ hn⟩))
  · exact .inr (.inr (.inr (.inl ⟨h, (nibble (by simp [h])).symm ▸ hn⟩)))
  · exact .inr (.inr (.inr (.inr (.inl ⟨h, (low (by simp [h])).symm ▸ hl⟩))))
  · exact .inr (.inr (.inr (.inr (.inr ⟨h, (low (by simp [h])).symm ▸ hl⟩))))

/-- Two rows that both match a word agree where both masks look; in the table only a row and itself
do. -/
theorem row_eq_of_patterns_agree : ∀ row ∈ opcodeTable, ∀ row' ∈ opcodeTable,
    row.pattern &&& row'.mask = row'.pattern &&& row.mask → row = row' := by
  decide

theorem row_eq_of_matches {row row' : OpcodeRow} (mem : row ∈ opcodeTable)
    (mem' : row' ∈ opcodeTable) (hit : w &&& row.mask = row.pattern)
    (hit' : w &&& row'.mask = row'.pattern) : row = row' := by
  apply row_eq_of_patterns_agree row mem row' mem'
  rw [← hit, ← hit', BitVec.and_assoc, BitVec.and_assoc, BitVec.and_comm row.mask]

/-- The table has a row for every word that the decoder does not refuse, and no other. -/
theorem no_row_iff : (∀ row ∈ opcodeTable, w &&& row.mask ≠ row.pattern) ↔ Unlisted w := by
  constructor
  · intro none
    cases h : decode w with
    | ok i =>
      obtain ⟨row, mem, -, hit⟩ := row_of_decode h
      exact absurd hit (none row mem)
    | error e => exact (decode_eq_error_iff.1 h).1
  · intro unlisted row mem hit
    exact pattern_not_unlisted row mem (unlisted.pattern mem hit)

/-- Settles O3: the rows' patterns have a meaning, and their words share the fields R95 looks at. -/
theorem decodingFollowsTheOpcodeTable : Obligations.DecodingFollowsTheOpcodeTable :=
  fun _ => ⟨fun _ => row_of_decode, no_row_iff.trans decode_eq_unknownOpcode_iff.symm,
    fun _ mem _ mem' => row_eq_of_matches mem mem'⟩

/-! ### Words written out -/

/-- Settles O5: the decoder evaluates on each word. -/
theorem writtenOutWordsDecode : Obligations.WrittenOutWordsDecode := by
  unfold Obligations.WrittenOutWordsDecode
  decide

end Sys2Proof
end

section
/-! The CYCLE family: what one CYCLE does in each of its phases, how an instruction ends, and where
it leaves PC (40_cycle.md). -/

namespace Sys2Proof.Machine

open Sys2Proof.Claims

variable {s t : State} {i : Instr}

/-! ### The phases of a step -/

/-- A step whose fetch stays in memory decodes and executes the word at PC, with PC advanced
(40_cycle.md R123). -/
theorem step_of_fetch (ready : Ready s) (inside : s.pc.toNat ≤ 0xFFE) :
    step s = decodeExecute (wordAt s s.pc.toNat) (s.setPc (s.pc + 2)) := by
  obtain ⟨idle, sound, running⟩ := ready
  exact (step_of_idle idle).trans (cycle_of_fetch sound running inside)

/-- Settles O6: the fetched word decodes, so its instruction is executed (40_cycle.md R125). -/
theorem stepRunsTheDecodedInstruction : Obligations.StepRunsTheDecodedInstruction :=
  fun _ _ ready inside dec => (step_of_fetch ready inside).trans (decodeExecute_of_ok dec)

/-- Settles O11: the fetched word does not decode, so the CYCLE ends in the state the fetch left
(40_cycle.md R124). -/
theorem unknownWordOnlyAdvancesPc : Obligations.UnknownWordOnlyAdvancesPc :=
  fun _ _ ready inside dec => (step_of_fetch ready inside).trans (decodeExecute_of_error dec)

/-- Settles O10: a fetch that fails ends the CYCLE with a raise in the state it began in. -/
theorem fetchOutsideMemoryIsLatched : Obligations.FetchOutsideMemoryIsLatched := by
  intro s ⟨idle, sound, running⟩ outside
  exact ⟨_, (step_of_idle idle).trans (cycle_of_fetch_out sound running outside), rfl⟩

/-- Settles O8, by induction on the number of steps: the first one notes the kind, and every later
one starts in a state that is latched and idle like the first. -/
theorem latchedErrorMakesCyclesInert : Obligations.LatchedErrorMakesCyclesInert := by
  intro n
  induction n with
  | zero =>
    intro s k idle latch
    exact run_of_step core ((step_of_idle idle).trans (cycle_of_latched latch))
  | succ n ih =>
    intro s k idle latch
    calc core.run (n + 2) s
        = core.run (n + 1) (s.answer (.error k.kind)) :=
          run_of_step core ((step_of_idle idle).trans (cycle_of_latched latch))
      _ = .next { s with reply := some (.error k.kind) } := ih _ k idle latch

/-- The number of a key, as the byte stored in a register (47_keypad.md R232). -/
theorem keyByte_toNat (k : Reg) : (BitVec.ofNat 8 k.val).toNat = k.val := by
  rw [BitVec.toNat_ofNat]
  omega

/-- Settles O9: the poll takes the key that key_select finds, the lowest pressed one. -/
theorem keyWaitCyclePollsTheKeys : Obligations.KeyWaitCyclePollsTheKeys := by
  intro s x idle sound waiting
  have poll : step s = .next ((keyWait x s).answer .ok) :=
    (step_of_idle idle).trans (cycle_of_waiting sound waiting)
  refine ⟨fun k pressed lowest => ?_, fun released => ?_⟩
  · rw [keyWait_of_some (keySelect_eq_some.2 ⟨pressed, lowest⟩)] at poll
    refine ⟨_, poll, ?_, fun r other => reg_setReg_of_ne other, rfl⟩
    rw [answer_reg, setMode_reg, reg_setReg, if_pos rfl, keyByte_toNat]
  · rwa [keyWait_of_none (keySelect_eq_none.2 released)] at poll

/-! ### Every step answers -/

theorem decodeExecute_answers (w : Word) (s : State) : ∃ t, decodeExecute w s = .next t := by
  cases dec : decode w with
  | ok i =>
    obtain ⟨t, ht, -⟩ := exec_answers i (s.answer .ok)
    exact ⟨t, (decodeExecute_of_ok dec).trans ht⟩
  | error e => exact ⟨_, decodeExecute_of_error dec⟩

theorem cycle_answers (s : State) : ∃ t, cycle s = .next t := by
  cases latch : s.fault with
  | some k => exact ⟨_, cycle_of_latched latch⟩
  | none =>
    cases mode : s.mode with
    | awaitingKey x => exact ⟨_, cycle_of_waiting latch mode⟩
    | running =>
      rcases Nat.lt_or_ge 0xFFE s.pc.toNat with out | inside
      · exact ⟨_, cycle_of_fetch_out latch mode out⟩
      · rw [cycle_of_fetch latch mode inside]
        exact decodeExecute_answers _ _

theorem runEvent_answers (e : HostEvent) (s : State) : ∃ t, runEvent e s = .next t := by
  cases e with
  | cycle => exact cycle_answers s
  | load | reset | tick | setKey => exact ⟨_, rfl⟩

/-- Settles O12: the CYCLE and every other event answer a next state. -/
theorem everyStepAnswersANextState : Obligations.EveryStepAnswersANextState := by
  intro s
  cases pending : s.pending with
  | nil =>
    rw [step_of_idle pending]
    exact cycle_answers s
  | cons e rest =>
    rw [step_of_event pending]
    exact runEvent_answers e _

/-! ### How an instruction ends -/

/-- When an instruction raises, and which error (40_cycle.md R126). `exec_completesOrRaises` ties
it to `exec`. -/
inductive RaiseCause (s : State) : Instr → FatalKind → Prop
  | memory (i : Instr) (uses : usesMemory i = true) : RaiseCause s i .addressOutOfRange
  | fullStack (nnn : Addr12) (full : s.sp = 16) : RaiseCause s (.call nnn) .stackOverflow
  | emptyStack (empty : s.sp = 0) : RaiseCause s .ret .stackUnderflow

/-- How executing `i` in `s` ends in `t`: complete, with FAULT and the reply as they were, or with
a raise for which there is a cause, and no other effect (40_cycle.md R126, R127). -/
def CompletesOrRaises (s : State) (i : Instr) (t : State) : Prop :=
  (t.fault = s.fault ∧ t.reply = s.reply) ∨ ∃ k, RaiseCause s i k ∧ t = s.raise k

/-- An instruction without an error condition completes. -/
theorem exec_keeps_fault_reply (h : exec i s = .next t)
    (safe : ¬(i = .ret ∨ (∃ nnn, i = .call nnn) ∨ usesMemory i = true)) :
    t.fault = s.fault ∧ t.reply = s.reply := by
  obtain ⟨-, -, -, -, -, -, -, -, -, -, -, -, -, -, fault, -, reply⟩ :=
    eachElementHasOnlyItsListedWriters s t i h
  exact ⟨by_contra fun changed => safe (fault changed),
    by_contra fun changed => safe (reply changed)⟩

/-- RET raises with an empty stack, and otherwise pops PC and moves SP (41_control_transfer.md
R140). -/
theorem execRet_cases (h : execRet s = .next t) :
    (s.sp = 0 ∧ t = s.raise .stackUnderflow) ∨
      (0 < s.sp.val ∧ s.stack[s.sp.val - 1]? = some t.pc ∧
        t = { s with pc := t.pc, sp := t.sp }) := by
  rcases Nat.eq_zero_or_pos s.sp.val with empty | used
  · have empty : s.sp = 0 := Fin.ext empty
    exact .inl ⟨empty, (Host.Outcome.next.inj ((execRet_of_zero empty).symm.trans h)).symm⟩
  · obtain rfl := Host.Outcome.next.inj ((execRet_of_pos used).symm.trans h)
    exact .inr ⟨used, Vector.getElem?_eq_getElem _, rfl⟩

/-- CALL raises with a full stack, and otherwise pushes PC and jumps (41_control_transfer.md
R142). -/
theorem execCall_cases {nnn : Addr12} (h : execCall nnn s = .next t) :
    (s.sp = 16 ∧ t = s.raise .stackOverflow) ∨
      (t.stack[s.sp.val]? = some s.pc ∧
        t = { s with pc := zext12 nnn, stack := t.stack, sp := t.sp }) := by
  rcases Nat.lt_or_ge s.sp.val 16 with free | full
  · obtain rfl := Host.Outcome.next.inj ((execCall_of_lt nnn free).symm.trans h)
    exact .inr ⟨by simp, rfl⟩
  · have full : s.sp = 16 := Fin.ext (Nat.le_antisymm (Nat.le_of_lt_succ s.sp.isLt) full)
    exact .inl ⟨full, (Host.Outcome.next.inj ((execCall_of_full nnn full).symm.trans h)).symm⟩

/-- What the four memory instructions share: a raise when the range is not in memory, an update
that keeps FAULT and the reply when it is (45_index_memory.md R196). -/
theorem ranged_completesOrRaises {ok : Bool} {u : State}
    (h : (if ok then .next u else .next (s.raise .addressOutOfRange) : Answer) = .next t)
    (uses : usesMemory i = true) (keeps : u.fault = s.fault ∧ u.reply = s.reply) :
    CompletesOrRaises s i t := by
  cases ok with
  | false => exact .inr ⟨_, .memory i uses, (Host.Outcome.next.inj h).symm⟩
  | true =>
    obtain rfl := Host.Outcome.next.inj h
    exact .inl keeps

/-- Every instruction completes or makes one of the listed raises. -/
theorem exec_completesOrRaises (h : exec i s = .next t) : CompletesOrRaises s i t := by
  cases i with
  | ret =>
    rcases execRet_cases h with ⟨empty, raised⟩ | ⟨-, -, frame⟩
    · exact .inr ⟨_, .emptyStack empty, raised⟩
    · rw [frame]
      exact .inl ⟨rfl, rfl⟩
  | call nnn =>
    rcases execCall_cases h with ⟨full, raised⟩ | ⟨-, frame⟩
    · exact .inr ⟨_, .fullStack nnn full, raised⟩
    · rw [frame]
      exact .inl ⟨rfl, rfl⟩
  | drw | ldB => exact ranged_completesOrRaises h rfl ⟨rfl, rfl⟩
  | regDump | regLoad =>
    exact ranged_completesOrRaises h rfl ⟨advanceIndex_fault _ _, advanceIndex_reply _ _⟩
  | cls | jp | seImm | sneImm | seReg | sneReg | ldImm | addImm | ldReg | orReg | andReg | xorReg
  | addReg | sub | shr | subn | shl | ldI | jpV0 | rnd | skp | sknp | ldVxDt | ldVxK | ldDtVx
  | ldStVx | addI | ldF => exact .inl (exec_keeps_fault_reply h (by simp [usesMemory]))

/-- Settles O13: the step is exec with PC advanced and Ok noted, so completing leaves Ok and no
latch, and each cause of a raise is one of the listed ones. -/
theorem instructionErrorsArePreciseAndTyped : Obligations.InstructionErrorsArePreciseAndTyped := by
  intro s t i ready inside dec h
  have ⟨_, sound, _⟩ := ready
  rw [stepRunsTheDecodedInstruction s i ready inside dec] at h
  rcases exec_completesOrRaises h with ⟨fault, reply⟩ | ⟨k, cause, rfl⟩
  · exact .inl ⟨reply, fault.trans sound⟩
  · cases cause with
    | memory i uses => exact .inr (.inl ⟨uses, rfl⟩)
    | fullStack nnn full => exact .inr (.inr (.inl ⟨⟨nnn, rfl⟩, full, rfl⟩))
    | emptyStack empty => exact .inr (.inr (.inr ⟨rfl, empty, rfl⟩))

/-! ### PC after an instruction -/

/-- The indexed jump's sum fits 16 bits and is not reduced to 12 (41_control_transfer.md R143). -/
theorem zext12_add_zext8_toNat (nnn : Addr12) (b : Byte) :
    (zext12 nnn + zext8 b).toNat = nnn.toNat + b.toNat := by
  have := nnn.isLt
  have := b.isLt
  rw [BitVec.toNat_add, zext12_toNat, zext8_toNat]
  omega

/-- PC stays at a + 2 after every instruction but the control transfers and the skips. -/
theorem exec_keeps_pc (h : exec i s = .next t) (stays : ¬ writesPc i) : t.pc = s.pc := by
  obtain ⟨-, -, -, -, -, pc, -⟩ := eachElementHasOnlyItsListedWriters s t i h
  exact by_contra fun changed => stays (pc changed)

/-- Settles O14: a raise of RET or CALL has not completed, every other control transfer and skip
writes PC outright, and the remaining instructions are no writers of PC. -/
theorem pcAfterEachCompletedInstruction : Obligations.PcAfterEachCompletedInstruction := by
  intro s t i _ h completed
  cases i with
  | ret =>
    rcases execRet_cases h with ⟨-, rfl⟩ | ⟨used, popped, -⟩
    · cases completed
    · exact ⟨used, popped⟩
  | call nnn =>
    rcases execCall_cases h with ⟨-, rfl⟩ | ⟨pushed, frame⟩
    · cases completed
    · refine ⟨?_, pushed⟩
      rw [frame, zext12_toNat]
  | jp nnn =>
    obtain rfl := Host.Outcome.next.inj h
    exact zext12_toNat nnn
  | jpV0 nnn =>
    obtain rfl := Host.Outcome.next.inj h
    exact zext12_add_zext8_toNat nnn (s.reg 0)
  | seImm | sneImm | seReg | sneReg | skp =>
    obtain rfl := Host.Outcome.next.inj h
    simp [skipIf_pc]
  | sknp x =>
    obtain rfl := Host.Outcome.next.inj h
    cases down : s.keyDown (keyNumber (s.reg x)) <;> simp [skipIf_pc, down]
  | cls | ldImm | addImm | ldReg | orReg | andReg | xorReg | addReg | sub | shr | subn | shl | ldI
  | rnd | drw | ldVxDt | ldVxK | ldDtVx | ldStVx | addI | ldF | ldB | regDump | regLoad =>
    exact exec_keeps_pc h not_false

/-! ### A placed word -/

theorem withFetchWord_eq_placeWord (s : State) (w : Word) :
    s.withFetchWord 16 w.toNat = placeWord s w := by
  rw [State.withFetchWord, Nat.mod_eq_of_lt w.isLt, BitVec.ofNat_toNat, BitVec.setWidth_eq]

/-- A word is placed where a fetch finds memory: at PC, or at PROG_BASE when PC is outside. -/
theorem placeWord_pc_le (s : State) (w : Word) : (placeWord s w).pc.toNat ≤ 0xFFE := by
  show (if rangeOk s.pc.toNat 2 then s.pc else BitVec.ofNat 16 0x200 : Word).toNat ≤ 0xFFE
  split
  next inside =>
    have := rangeOk_iff.1 inside
    omega
  next => decide

/-- The word at PC is the placed one: its two bytes lie in memory, high byte first. -/
theorem wordAt_placeWord (wf : s.mem.wf = true) (w : Word) :
    wordAt (placeWord s w) (placeWord s w).pc.toNat = w := by
  generalize at_pc : (placeWord s w).pc.toNat = a
  have inside : a ≤ 0xFFE := at_pc ▸ placeWord_pc_le s w
  have stored : (placeWord s w).mem = s.mem.writeBlock a [highByte w, lowByte w] := by
    rw [← at_pc]
    rfl
  have last : a + 2 ≤ 4096 := by omega
  have read (x : Nat) := read_writeBlock wf a x [highByte w, lowByte w] last
  have high : (placeWord s w).mem.read a = highByte w := by
    rw [stored, read]
    simp
  have low : (placeWord s w).mem.read (a + 1) = lowByte w := by
    rw [stored, read]
    simp
  calc wordAt (placeWord s w) a
      = wordOfBytes ((placeWord s w).mem.read a) ((placeWord s w).mem.read (a + 1)) := rfl
    _ = w := by rw [high, low, wordOfBytes_high_low]

/-- Settles O59: placing a word leaves a state that is ready to fetch it. -/
theorem placedWordIsRunByTheNextStep : Obligations.PlacedWordIsRunByTheNextStep := by
  intro s w i wf dec
  rw [withFetchWord_eq_placeWord]
  refine stepRunsTheDecodedInstruction _ i ⟨rfl, rfl, rfl⟩ (placeWord_pc_le s w) ?_
  rwa [wordAt_placeWord wf]

end Sys2Proof.Machine
end

section
/-! The control-transfer family: what RET, JP, CALL and JP V0 do, and that a RET undoes a CALL
(41_control_transfer.md). -/

namespace Sys2Proof.Machine

open Sys2Proof.Claims

variable {s : State}

/-! ### Jumps -/

/-- A write of PC is a write of nothing else. -/
theorem onlyPc_setPc (s : State) (w : Word) : OnlyPc s (s.setPc w) :=
  ⟨rfl, fun _ => rfl, fun _ => rfl⟩

/-- A jump is not checked where it is made: the fetch at its target raises when that is outside
memory (41_control_transfer.md R143, D8). -/
theorem nextFetchRaises_setPc {w : Word} (ready : Ready s) (outside : 0xFFE < w.toNat) :
    NextFetchRaises (s.setPc w) :=
  fetchOutsideMemoryIsLatched (s.setPc w) ready outside

/-- Settles O16: JP is one write of PC, and 0xFFF is above the last address of a fetch. -/
theorem jumpSetsOnlyPc : Obligations.JumpSetsOnlyPc := by
  intro s nnn
  refine ⟨decode_encode (i := .jp nnn) rfl, _, rfl, zext12_toNat nnn, onlyPc_setPc s _, ?_⟩
  rintro ready rfl
  exact nextFetchRaises_setPc ready (by decide)

/-- Settles O18: JP V0 is one write of PC, and the sum written fits its 16 bits. -/
theorem indexedJumpAddsV0 : Obligations.IndexedJumpAddsV0 := by
  intro s nnn
  have sum := zext12_add_zext8_toNat nnn (s.reg 0)
  refine ⟨decode_encode (i := .jpV0 nnn) rfl, _, rfl, sum, onlyPc_setPc s _, ?_⟩
  intro ready outside
  exact nextFetchRaises_setPc ready (sum ▸ outside)

/-! ### Subroutines -/

/-- RET with k + 1 entries in use, by the index of the entry it pops. -/
theorem execRet_of_succ {k : Fin 16} (used : s.sp.val = k.val + 1) :
    execRet s = .next { s with pc := s.stack[k.val], sp := k.castSucc } := by
  have last : s.sp.val - 1 = k.val := by omega
  rw [execRet_of_pos (by omega)]
  simp only [last]
  rfl

/-- Settles O15: with an entry in use RET pops the last one, and with none it raises. -/
theorem retPopsTheReturnAddress : Obligations.RetPopsTheReturnAddress := by
  refine fun s => ⟨decode_encode (i := .ret) rfl, fun k used => ?_, fun empty => ?_⟩
  · exact ⟨_, execRet_of_succ used, rfl, rfl, rfl, fun _ => rfl⟩
  · exact ⟨_, execRet_of_zero empty, rfl⟩

/-- Settles O17: with an entry free CALL writes the first free one, and with none it raises. -/
theorem callPushesTheReturnAddress : Obligations.CallPushesTheReturnAddress := by
  refine fun s nnn => ⟨decode_encode (i := .call nnn) rfl, fun k depth => ?_, fun full => ?_⟩
  · have free : s.sp.val < 16 := depth ▸ k.isLt
    refine ⟨_, execCall_of_lt nnn free, zext12_toNat nnn, ?_, congrArg (· + 1) depth, ?_, rfl,
      fun _ => rfl⟩
    · simp [depth]
    · intro j other
      have apart : s.sp.val ≠ j.val := fun same => other (Fin.ext (same.symm.trans depth))
      exact Vector.getElem_set_ne free j.isLt apart
  · exact ⟨_, execCall_of_full nnn full, rfl⟩

/-! ### A CALL and the RET at its target -/

/-- What a CALL nnn at PC leaves when an entry is free. `step_of_call` ties it to `step`. -/
def State.called (s : State) (nnn : Addr12) (free : s.sp.val < 16) : State :=
  { s with
    stack := s.stack.set s.sp.val (s.pc + 2)
    sp := ⟨s.sp.val + 1, by omega⟩
    pc := zext12 nnn
    reply := some .ok }

theorem step_of_call {nnn : Addr12} (ready : Ready s) (inside : s.pc.toNat ≤ 0xFFE)
    (dec : decode (wordAt s s.pc.toNat) = .ok (.call nnn)) (free : s.sp.val < 16) :
    step s = .next (s.called nnn free) := by
  rw [stepRunsTheDecodedInstruction s _ ready inside dec]
  exact execCall_of_lt (s := (s.setPc (s.pc + 2)).answer .ok) nnn free

theorem step_of_ret {k : Fin 16} (ready : Ready s) (inside : s.pc.toNat ≤ 0xFFE)
    (word : wordAt s s.pc.toNat = 0x00EE) (used : s.sp.val = k.val + 1) :
    step s = .next { s with pc := s.stack[k.val], sp := k.castSucc, reply := some .ok } := by
  have dec : decode (wordAt s s.pc.toNat) = .ok .ret := word ▸ decode_encode (i := .ret) rfl
  rw [stepRunsTheDecodedInstruction s _ ready inside dec]
  exact execRet_of_succ (s := (s.setPc (s.pc + 2)).answer .ok) used

/-- Settles O19: the CALL leaves a state that is ready to fetch the RET, and the RET pops the entry
that the CALL pushed. -/
theorem callThenReturnComesBack : Obligations.CallThenReturnComesBack := by
  intro s nnn ready inside free dec target_inside target_ret
  have call : step s = .next (s.called nnn free) := step_of_call ready inside dec free
  have at_target : (s.called nnn free).pc.toNat = nnn.toNat := zext12_toNat nnn
  have ret := step_of_ret (s := s.called nnn free) (k := ⟨s.sp.val, free⟩) ready
    (at_target ▸ target_inside) (at_target ▸ target_ret) rfl
  exact ⟨_, _, call, ret, Vector.getElem_set_self free, rfl, rfl⟩

end Sys2Proof.Machine
end

section
/-! The skip family: the four register skips compare as 42_skips.md says, and any of the six skips
passes the next two bytes without looking at them (42_skips.md R150 to R154). -/

namespace Sys2Proof.Machine

open Sys2Proof.Claims

variable {s : State} {i : Instr}

/-! ### What a skip does -/

/-- A skip, taken or not, writes nothing but PC. -/
theorem onlyPc_skipIf (s : State) (c : Bool) : OnlyPc s (s.skipIf c) := by
  cases c with
  | false => exact ⟨rfl, fun _ => rfl, fun _ => rfl⟩
  | true => exact onlyPc_setPc s _

/-- The SNE instructions decide the complement of what the SE instructions decide (R151, R153). -/
theorem exec_sneImm (x : Reg) (kk : Byte) (s : State) :
    exec (.sneImm x kk) s = .next (s.skipIf (decide (s.reg x ≠ kk))) := by
  rw [decide_not]
  rfl

theorem exec_sneReg (x y : Reg) (s : State) :
    exec (.sneReg x y) s = .next (s.skipIf (decide (s.reg x ≠ s.reg y))) := by
  rw [decide_not]
  rfl

/-- An instruction that skips on a condition advances PC by 2 more exactly when it holds. -/
theorem completes_of_skip {p : Prop} [Decidable p]
    (skip : exec i s = .next (s.skipIf (decide p))) :
    ∃ t, exec i s = .next t ∧ t.pc = (if p then s.pc + 2 else s.pc) ∧ OnlyPc s t :=
  ⟨_, skip, by simp only [skipIf_pc, decide_eq_true_eq], onlyPc_skipIf s _⟩

/-! ### The register skips -/

/-- Settles O20: both compare V[x] with the immediate, and a skip writes only PC. -/
theorem immediateSkipsCompareBytes : Obligations.ImmediateSkipsCompareBytes :=
  fun s x kk => ⟨decode_encode (i := .seImm x kk) rfl, decode_encode (i := .sneImm x kk) rfl,
    completes_of_skip rfl, completes_of_skip (exec_sneImm x kk s)⟩

/-- Settles O21: both compare V[x] with V[y], and R95 lists the words whose low nibble is not 0. -/
theorem registerSkipsCompareRegisters : Obligations.RegisterSkipsCompareRegisters := by
  intro s x y
  refine ⟨decode_encode (i := .seReg x y) rfl, decode_encode (i := .sneReg x y) rfl, ?_,
    completes_of_skip rfl, completes_of_skip (exec_sneReg x y s)⟩
  intro n pos small w word
  have listed (op : Nat) (family : op < 16) :=
    unknownWordsAreTheListedOnes op x y n family x.isLt y.isLt small
  rcases word with rfl | rfl
  · exact (listed 5 (by decide)).2 (.inr (.inl ⟨rfl, pos.ne'⟩))
  · exact (listed 9 (by decide)).2 (.inr (.inr (.inr (.inl ⟨rfl, pos.ne'⟩))))

/-! ### A skip executed by a step -/

/-- The state in which a fetched instruction is executed: PC advanced by 2 and the reply Ok noted
(40_cycle.md R123, R125). `step_eq_exec_fetched` ties it to `step`. -/
def State.fetched (s : State) : State := { s with pc := s.pc + 2, reply := some .ok }

theorem step_eq_exec_fetched (ready : Ready s) (inside : s.pc.toNat ≤ 0xFFE)
    (dec : decode (wordAt s s.pc.toNat) = .ok i) : step s = exec i s.fetched :=
  stepRunsTheDecodedInstruction s i ready inside dec

/-- A skip at a leaves PC at a + 4 when it is taken and at a + 2 when not, without a wrap (R154). -/
theorem skipIf_fetched_pc_toNat (inside : s.pc.toNat ≤ 0xFFE) (taken : Bool) :
    (s.fetched.skipIf taken).pc.toNat = s.pc.toNat + (if taken then 4 else 2) := by
  have advanced : (s.pc + 2).toNat = s.pc.toNat + 2 := add_two_toNat (by omega)
  cases taken with
  | false => exact advanced
  | true =>
    calc (s.pc + 2 + 2).toNat
        = (s.pc + 2).toNat + 2 := add_two_toNat (by omega)
      _ = s.pc.toNat + 4 := by rw [advanced]

theorem skipIf_fetched_eq (s : State) (taken : Bool) :
    s.fetched.skipIf taken =
      { s with pc := (s.fetched.skipIf taken).pc, reply := some .ok } := by
  obtain ⟨frame, -⟩ := onlyPc_skipIf s.fetched taken
  exact frame

/-- Settles O22: each of the six skips is `skipIf` of its condition, which the fetch leaves as it
was and which no memory byte enters; taken at 0xFFC or above it jumps outside memory. -/
theorem skipPassesTwoBytesUnexamined : Obligations.SkipPassesTwoBytesUnexamined := by
  intro s i ready inside dec taken cond
  have skip : exec i s.fetched = .next (s.fetched.skipIf taken) := by
    rcases cond with ⟨x, kk, rfl, rfl⟩ | ⟨x, kk, rfl, rfl⟩ | ⟨x, y, rfl, rfl⟩ | ⟨x, y, rfl, rfl⟩ |
      ⟨x, rfl, rfl⟩ | ⟨x, rfl, rfl⟩
    · rfl
    · exact exec_sneImm x kk s.fetched
    · rfl
    · exact exec_sneReg x y s.fetched
    · rfl
    · rfl
  have pc := skipIf_fetched_pc_toNat inside taken
  refine ⟨_, (step_eq_exec_fetched ready inside dec).trans skip, pc,
    skipIf_fetched_eq s taken, ?_⟩
  rintro rfl high
  have outside : 0xFFE < (s.fetched.pc + 2).toNat :=
    calc 0xFFE < s.pc.toNat + 4 := by omega
      _ = (s.fetched.pc + 2).toNat := pc.symm
  exact nextFetchRaises_setPc (s := s.fetched) ready outside

end Sys2Proof.Machine
end

section
/-! The immediate family: LD, ADD and RND with an immediate byte are each one write of one register
(43_immediate.md R160 to R162). -/

namespace Sys2Proof.Machine

open Sys2Proof.Claims

/-! ### What a write of one register does -/

theorem reg_setReg_self (s : State) (x : Reg) (b : Byte) : (s.setReg x b).reg x = b := by
  rw [reg_setReg, if_pos rfl]

/-- A write of one register, VF like any other, is a write of nothing else. -/
theorem onlyRegs_setReg (s : State) (x : Reg) (b : Byte) : OnlyRegs (· = x) s (s.setReg x b) :=
  ⟨rfl, fun _ other => reg_setReg_of_ne other, fun _ => rfl⟩

/-! ### The immediate operations -/

/-- Settles O23: LD Vx, kk is the write of kk to V[x]. -/
theorem loadImmediateSetsTheRegister : Obligations.LoadImmediateSetsTheRegister :=
  fun s x kk => ⟨decode_encode (i := .ldImm x kk) rfl, _, rfl, reg_setReg_self s x kk,
    onlyRegs_setReg s x kk⟩

/-- Settles O24: ADD Vx, kk is the write of the 8-bit sum to V[x], whose carry goes nowhere. -/
theorem addImmediateWrapsWithoutFlag : Obligations.AddImmediateWrapsWithoutFlag := by
  intro s x kk
  refine ⟨decode_encode (i := .addImm x kk) rfl, _, rfl, ?_, onlyRegs_setReg s x _⟩
  calc ((s.setReg x (s.reg x + kk)).reg x).toNat
      = (s.reg x + kk).toNat := by rw [reg_setReg_self]
    _ = ((s.reg x).toNat + kk.toNat) % 256 := BitVec.toNat_add _ _

/-- A draw followed by one write of the masked byte (R162, log 5). -/
theorem exec_rnd (x : Reg) (kk : Byte) (s : State) : exec (.rnd x kk) s =
    .next (State.setReg { s with draws := s.draws + 1 } x (Config.rnd s.draws &&& kk)) := rfl

/-- Settles O25: RND Vx, kk is the write of the masked draw to V[x], in the state whose next draw is
the following one. -/
theorem randomByteIsMasked : Obligations.RandomByteIsMasked := by
  intro s x kk
  refine ⟨decode_encode (i := .rnd x kk) rfl, _, exec_rnd x kk s, reg_setReg_self _ x _, ?_, rfl,
    onlyRegs_setReg _ x _⟩
  intro b masked
  rw [reg_setReg_self, BitVec.getLsbD_and, masked, Bool.and_false]

end Sys2Proof.Machine
end

section
/-! The ALU family: the copy and the logical operations are one write of one register, and the
arithmetic and the shifts are a write of the result with the flag stored last (44_alu.md R170 to
R179). -/

namespace Sys2Proof.Machine

open Sys2Proof.Claims

variable {s : State} {i : Instr} {x y : Reg}

/-! ### The words of family 8 -/

/-- The words of family 8 as its rules spell them, with the sub-opcode in the constant. -/
theorem decode_aluWord (n : Nat) (wf : i.WellFormed) (enc : encode i = encRegReg 0x8 x y n) :
    decode (BitVec.ofNat 16 (0x8000 + n + x.val * 256 + y.val * 16)) = .ok i := by
  have sum : 0x8000 + n + x.val * 256 + y.val * 16 = 0x8 * 4096 + x.val * 256 + y.val * 16 + n := by
    omega
  rw [sum]
  exact (congrArg decode enc.symm).trans (decode_encode wf)

/-! ### The copy and the logical operations -/

/-- Settles O26: each is one write of V[x], and the bitwise operations act on each bit alone. -/
theorem copyAndLogicWriteOnlyTheDestination : Obligations.CopyAndLogicWriteOnlyTheDestination := by
  intro s x y
  refine ⟨⟨decode_aluWord 0 rfl rfl, decode_aluWord 1 rfl rfl, decode_aluWord 2 rfl rfl,
    decode_aluWord 3 rfl rfl⟩, ?_, ?_, ?_, ?_⟩
  · exact ⟨_, rfl, reg_setReg_self s x _, onlyRegs_setReg s x _⟩
  · refine ⟨_, rfl, onlyRegs_setReg s x _, fun b => ?_⟩
    rw [reg_setReg_self, BitVec.getLsbD_or]
  · refine ⟨_, rfl, onlyRegs_setReg s x _, fun b => ?_⟩
    rw [reg_setReg_self, BitVec.getLsbD_and]
  · refine ⟨_, rfl, onlyRegs_setReg s x _, fun b => ?_⟩
    rw [reg_setReg_self, BitVec.getLsbD_xor]

/-! ### A result and its flag -/

/-- A result written with its flag touches the destination and VF, and nothing else. -/
theorem onlyRegs_setRegFlag (s : State) (x : Reg) (b : Byte) (c : Bool) :
    OnlyRegs (fun r => r = x ∨ r = 15) s (s.setRegFlag x b c) := by
  refine ⟨rfl, fun r other => ?_, fun _ => rfl⟩
  obtain ⟨off_dest, off_flag⟩ := not_or.1 other
  rw [reg_setRegFlag, if_neg off_flag, if_neg off_dest]

/-- An instruction that writes a result and then its flag leaves the result in V[x] unless that is
VF, and the flag in VF in either case (R170, D6). -/
theorem completes_of_setRegFlag {b : Byte} {c : Bool} {flag : Nat} (P : Byte → Prop)
    (run : exec i s = .next (s.setRegFlag x b c)) (result : P b)
    (stored : (flagByte c).toNat = flag) :
    ∃ t, exec i s = .next t ∧ (x ≠ 15 → P (t.reg x)) ∧ (t.reg 15).toNat = flag ∧
      OnlyRegs (fun r => r = x ∨ r = 15) s t := by
  refine ⟨_, run, fun off_flag => ?_, ?_, onlyRegs_setRegFlag s x b c⟩
  · rwa [reg_setRegFlag, if_neg off_flag, if_pos rfl]
  · rwa [reg_setRegFlag, if_pos rfl]

/-- A flag that records a comparison is 1 exactly when it holds (R21). -/
theorem flagByte_decide_toNat (p : Prop) [Decidable p] :
    (flagByte (decide p)).toNat = if p then 1 else 0 := by
  simp only [flagByte_toNat, decide_eq_true_eq]

/-- A flag that records a bit has that bit's value (R177, R179). -/
theorem flagByte_getLsbD_toNat (a : Byte) (k : Nat) :
    (flagByte (a.getLsbD k)).toNat = a.toNat / 2 ^ k % 2 :=
  calc (flagByte (a.getLsbD k)).toNat
      = (a.toNat.testBit k).toNat := (flagByte_toNat _).trans (Bool.cond_eq_ite _ _ _).symm
    _ = a.toNat / 2 ^ k % 2 := Nat.toNat_testBit _ _

/-! ### Addition and subtraction -/

/-- Settles O27: ADD Vx, Vy writes the 8-bit sum, and its flag compares the exact sum with 256. -/
theorem addSetsTheCarry : Obligations.AddSetsTheCarry :=
  fun s x y => ⟨decode_aluWord 4 rfl rfl,
    completes_of_setRegFlag (·.toNat = ((s.reg x).toNat + (s.reg y).toNat) % 256) rfl
      (BitVec.toNat_add _ _) (flagByte_decide_toNat _)⟩

/-- The 8-bit difference is the exact one modulo 256, a borrow included. -/
theorem byte_sub_toNat_intCast (a b : Byte) :
    ((a - b).toNat : Int) = ((a.toNat : Int) - b.toNat) % 256 := by
  have := b.isLt
  rw [BitVec.toNat_sub]
  omega

/-- SUB and SUBN are one operation with the operands exchanged (R176, R178). -/
theorem completes_of_subtraction {a b : Byte}
    (run : exec i s = .next (s.setRegFlag x (a - b) (noBorrow a b))) :
    ∃ t, exec i s = .next t ∧
      (x ≠ 15 → ((t.reg x).toNat : Int) = (a.toNat - b.toNat : Int) % 256) ∧
      (t.reg 15).toNat = (if b.toNat ≤ a.toNat then 1 else 0) ∧
      OnlyRegs (fun r => r = x ∨ r = 15) s t :=
  completes_of_setRegFlag (fun d => (d.toNat : Int) = (a.toNat - b.toNat : Int) % 256) run
    (byte_sub_toNat_intCast a b) (flagByte_decide_toNat _)

/-- Settles O28: the minuend is V[x] for SUB and V[y] for SUBN. -/
theorem subtractSetsNotBorrow : Obligations.SubtractSetsNotBorrow :=
  fun _ _ _ => ⟨decode_aluWord 5 rfl rfl, decode_aluWord 7 rfl rfl,
    completes_of_subtraction rfl, completes_of_subtraction rfl⟩

/-! ### Shifts -/

/-- Half of a byte fits a byte: SHR loses only the bit it moves out. -/
theorem half_toNat (a : Byte) : (BitVec.ofNat 8 (a.toNat / 2)).toNat = a.toNat / 2 := by
  rw [BitVec.toNat_ofNat, Nat.mod_eq_of_lt ((Nat.div_le_self _ _).trans_lt a.isLt)]

/-- Bit 7 of a byte is its quotient by 128. -/
theorem flagByte_shiftedOutLeft_toNat (a : Byte) :
    (flagByte (shiftedOutLeft a)).toNat = a.toNat / 128 := by
  have := a.isLt
  calc (flagByte (shiftedOutLeft a)).toNat
      = a.toNat / 128 % 2 := flagByte_getLsbD_toNat a 7
    _ = a.toNat / 128 := by omega

theorem flagByte_shiftedOutRight_toNat (a : Byte) :
    (flagByte (shiftedOutRight a)).toNat = a.toNat % 2 := by
  rw [shiftedOutRight, flagByte_getLsbD_toNat, pow_zero, Nat.div_one]

/-- Settles O29: both shift the byte that the quirk bit selects and store the bit moved out. -/
theorem shiftsMoveOneBitOut : Obligations.ShiftsMoveOneBitOut := by
  intro s x y
  refine ⟨decode_aluWord 6 rfl rfl, decode_aluWord 0xE rfl rfl, ?_⟩
  intro a source
  have selected : s.shiftSource x y = a := source.symm
  constructor
  · refine completes_of_setRegFlag (·.toNat = a.toNat / 2) rfl ?_ ?_
    · rw [selected, half_toNat]
    · rw [selected, flagByte_shiftedOutRight_toNat]
  · refine completes_of_setRegFlag (·.toNat = a.toNat * 2 % 256) rfl ?_ ?_
    · rw [selected, BitVec.toNat_ofNat]
    · rw [selected, flagByte_shiftedOutLeft_toNat]

end Sys2Proof.Machine
end

section
/-! The index family: what writes I alone, what the memory instructions store and load, and that
they raise before the first access when an address is outside memory (45_index_memory.md R190 to
R196). -/

namespace Sys2Proof.Machine

open Sys2Proof.Claims

variable {i : Instr} {x : Reg}

/-! ### The words of family F -/

/-- The words of family F as its rules spell them, with the low byte in the constant. -/
theorem decode_miscWord (low : Nat) (wf : i.WellFormed) (enc : encode i = encRegSub 0xF x low) :
    decode (BitVec.ofNat 16 (0xF000 + low + x.val * 256)) = .ok i := by
  have sum : 0xF000 + low + x.val * 256 = 0xF * 4096 + x.val * 256 + low := by omega
  rw [sum]
  exact (congrArg decode enc.symm).trans (decode_encode wf)

/-! ### Writes of I -/

/-- A write of I is a write of nothing else. -/
theorem onlyIndex_setI (s : State) (w : Word) : OnlyIndex s (s.setI w) :=
  ⟨rfl, fun _ => rfl, fun _ => rfl⟩

/-- Settles O31: LD I, nnn is the write of nnn to I. -/
theorem loadIndexSetsOnlyI : Obligations.LoadIndexSetsOnlyI :=
  fun s nnn => ⟨decode_encode (i := .ldI nnn) rfl, _, rfl, zext12_toNat nnn, onlyIndex_setI s _⟩

/-- Settles O32: both are one write of I, of the 16-bit sum and of the glyph's address. -/
theorem addIndexAndFontAddress : Obligations.AddIndexAndFontAddress := by
  intro s x
  have sum : (s.i + zext8 (s.reg x)).toNat = (s.i.toNat + (s.reg x).toNat) % 65536 := by
    rw [BitVec.toNat_add, zext8_toNat]
  exact ⟨decode_miscWord 0x1E rfl rfl, decode_miscWord 0x29 rfl rfl,
    ⟨_, rfl, sum, onlyIndex_setI s _⟩, ⟨_, rfl, fontAddress_toNat _, onlyIndex_setI s _⟩⟩

/-- The advance of I under INDEX_INC writes nothing else (R194, R195). -/
theorem advanceIndex_frame (s : State) (n : Nat) :
    s.advanceIndex n = { s with i := (s.advanceIndex n).i } := by
  unfold State.advanceIndex
  split
  · rfl
  · rfl

/-! ### The block of decimal digits -/

/-- Byte k of a block stored in range is the one read at its address (20_memory.md R70). -/
theorem read_writeBlock_inside {m : Memory} (wf : m.wf = true) {a k : Nat} {bs : List Byte}
    (last : a + bs.length ≤ 4096) (inside : k < bs.length) :
    (m.writeBlock a bs).read (a + k) = bs.getD k 0 := by
  have within : a ≤ a + k ∧ a + k < a + bs.length := by omega
  rw [read_writeBlock wf a _ bs last, if_pos within, Nat.add_sub_cancel_left]

/-- The digits are no greater than the byte, so each fits a byte (R193). -/
theorem bcdDigits_toNat (b : Byte) :
    (bcdDigits b).map BitVec.toNat = [b.toNat / 100, b.toNat / 10 % 10, b.toNat % 10] := by
  have := b.isLt
  have fits {n : Nat} (le : n ≤ b.toNat) : (BitVec.ofNat 8 n).toNat = n := by
    rw [BitVec.toNat_ofNat]
    omega
  simp only [bcdDigits, List.map_cons, List.map_nil]
  rw [fits (by omega), fits (by omega), fits (by omega)]

/-- Settles O33: the three bytes stored are the digits, and the store is the only write. -/
theorem bcdStoresThreeDigits : Obligations.BcdStoresThreeDigits := by
  intro s x wf range
  have stored (k : Nat) (inside : k < 3) :
      ((s.mem.writeBlock s.i.toNat (bcdDigits (s.reg x))).read (s.i.toNat + k)).toNat =
        [(s.reg x).toNat / 100, (s.reg x).toNat / 10 % 10, (s.reg x).toNat % 10].getD k 0 := by
    rw [read_writeBlock_inside wf (Nat.succ_le_succ range) inside, ← bcdDigits_toNat]
    exact (List.getD_map _ 0 BitVec.toNat).symm
  exact ⟨decode_miscWord 0x33 rfl rfl, _, execLdB_of_range x (Nat.succ_le_succ range),
    stored 0 (by decide), stored 1 (by decide), stored 2 (by decide),
    fun a => read_writeBlock_outside wf s.i.toNat a (bcdDigits (s.reg x)), rfl⟩

/-! ### The register dump and load -/

/-- Settles O34: the bytes dumped are the registers, and besides the store only I is written. -/
theorem registerDumpStoresTheRegisters : Obligations.RegisterDumpStoresTheRegisters := by
  intro s x wf range
  have last : s.i.toNat + (x.val + 1) ≤ 4096 := by omega
  have run := execRegDump_of_range x last
  refine ⟨decode_miscWord 0x55 rfl rfl, _, run, fun r => read_of_regDump wf range run, ?_,
    advanceIndex_toNat _ last, ?_⟩
  · intro a out
    rw [advanceIndex_mem, setMem_mem]
    apply read_writeBlock_outside wf
    rwa [dumpBytes_length]
  · rw [advanceIndex_mem]
    exact advanceIndex_frame _ _

/-- The registers after n bytes from a are loaded into V[0], V[1], ... (R195). -/
theorem reg_loadRegs_readBlock (s : State) (m : Memory) (a n : Nat) (r : Reg) :
    (s.loadRegs (m.readBlock a n)).reg r = if r.val < n then m.read (a + r.val) else s.reg r := by
  rw [reg_loadRegs, readBlock_length]
  refine ite_congr rfl (fun inside => ?_) (fun _ => rfl)
  rw [List.getD_eq_getElem?_getD, readBlock_getElem?, if_pos inside, Option.getD_some]

/-- Settles O35: the bytes loaded are those from I on, and besides V only I is written. -/
theorem registerLoadReadsTheRegisters : Obligations.RegisterLoadReadsTheRegisters := by
  intro s x range
  have last : s.i.toNat + (x.val + 1) ≤ 4096 := by omega
  refine ⟨decode_miscWord 0x65 rfl rfl, _, execRegLoad_of_range x last, ?_, ?_, ?_,
    advanceIndex_toNat _ last, ?_⟩
  · intro r loaded
    rw [advanceIndex_reg, reg_loadRegs_readBlock, if_pos (Nat.lt_succ_of_le loaded)]
  · intro r above
    rw [advanceIndex_reg, reg_loadRegs_readBlock, if_neg (Nat.not_lt.2 above)]
  · exact fun a => congrArg (·.read a) (advanceIndex_mem _ _)
  · rw [advanceIndex_v]
    exact advanceIndex_frame _ _

/-- Settles O36: the load reads the bytes at the addresses the dump stored, with nothing written in
between. -/
theorem loadAfterDumpRestoresTheRegisters : Obligations.LoadAfterDumpRestoresTheRegisters := by
  intro s t x v' wf range dump
  have stored : ∀ r : Reg, r.val ≤ x.val → t.mem.read (s.i.toNat + r.val) = s.reg r :=
    fun _ => read_of_regDump wf range dump
  obtain ⟨-, u, run, loaded, -⟩ :=
    registerLoadReadsTheRegisters { t with i := s.i, v := v' } x range
  exact ⟨u, run, fun r le => (loaded r le).trans (stored r le)⟩

/-! ### Addresses outside memory -/

/-- Settles O37: each of the four raises as soon as the last address of its range is above 0xFFF,
and a raise writes FAULT and the reply alone. -/
theorem outOfRangeAccessIsRaisedBeforeAnyWrite :
    Obligations.OutOfRangeAccessIsRaisedBeforeAnyWrite := by
  intro s x y n
  refine ⟨fun out => ?_, fun out => ⟨?_, ?_⟩, fun rows out => ?_⟩
  · exact ⟨_, execLdB_of_out x (by omega), rfl⟩
  · exact ⟨_, execRegDump_of_out x (by omega), rfl⟩
  · exact ⟨_, execRegLoad_of_out x (by omega), rfl⟩
  · exact ⟨_, execDrw_of_out x y rows (by omega), rfl⟩

end Sys2Proof.Machine
end

section
/-! The display family: CLS clears every pixel, and a DRW inverts the pixels of its wrapped sprite
and compares them with the display it found (46_display.md R210 to R214). -/

namespace Sys2Proof.Machine

open Sys2Proof.Claims

/-! ### Clearing -/

/-- Settles O39: CLS replaces the display, and every pixel of the snapshot is read from the cleared
one. -/
theorem clearTurnsEveryPixelOff : Obligations.ClearTurnsEveryPixelOff := by
  intro s
  refine ⟨decode_encode (i := .cls) rfl, _, rfl, pixel_clear, ?_, rfl, fun _ => rfl, fun _ => rfl⟩
  simp only [displaySnapshot, setFb_fb, pixel_clear, List.map_const', List.length_range]

/-! ### The sprite of a draw -/

variable {s t : State} {x y : Reg} {n px py : Nat}

/-- The pixels under the 1 bits of the n bytes at I, wrapped, in the order they are drawn (R212).
`mem_sprite` ties it to the statements' `Covered`, `exec_drw_of_range` to DRW. -/
def State.sprite (s : State) (x y : Reg) (n : Nat) : List (Nat × Nat) :=
  spritePoints (s.reg x).toNat (s.reg y).toNat (s.mem.readBlock s.i.toNat n)

theorem mem_sprite : (px, py) ∈ s.sprite x y n ↔ Covered s x y n px py := by
  simp only [State.sprite, mem_spritePoints_readBlock, Covered, spriteBit, exists_and_left]

theorem sprite_bound : ∀ p ∈ s.sprite x y n, p.1 < 64 ∧ p.2 < 32 :=
  fun _ => spritePoints_bound

/-- The rows that the encoding allows do not overlap on a display of 32. -/
theorem sprite_nodup (rows : n ≤ 15) : (s.sprite x y n).Nodup := by
  apply spritePoints_nodup
  rw [readBlock_length]
  omega

/-- The sprite depends on memory, I and the coordinates' values alone. -/
theorem covered_congr (mem : t.mem = s.mem) (i : t.i = s.i) (hx : t.reg x = s.reg x)
    (hy : t.reg y = s.reg y) : Covered t x y n px py ↔ Covered s x y n px py := by
  rw [Covered, mem, i, hx, hy, Covered]

/-! ### What a draw does -/

/-- A draw in range writes FB and VF: the sprite's pixels are drawn one by one from no collision. -/
theorem exec_drw_of_range (range : n = 0 ∨ s.i.toNat + n ≤ 4096) :
    exec (.drw x y n) s = .next ((s.setFb (drawPoints (s.sprite x y n) (s.fb, false)).1).setReg 15
      (flagByte (drawPoints (s.sprite x y n) (s.fb, false)).2)) := by
  rw [State.sprite, ← drawRows_eq]
  exact execDrw_of_range x y range

/-- A DRW of whatever height draws its sprite, or raises and does nothing else. -/
theorem exec_drw_cases (run : exec (.drw x y n) s = .next t) :
    t = (s.setFb (drawPoints (s.sprite x y n) (s.fb, false)).1).setReg 15
      (flagByte (drawPoints (s.sprite x y n) (s.fb, false)).2) ∨
    t = s.raise .addressOutOfRange := by
  by_cases range : n = 0 ∨ s.i.toNat + n ≤ 4096
  · exact .inl (Host.Outcome.next.inj (run.symm.trans (exec_drw_of_range range)))
  · exact .inr (Host.Outcome.next.inj (run.symm.trans (execDrw_of_out x y (by omega) (by omega))))

theorem exec_drw_keeps_mem_i (run : exec (.drw x y n) s = .next t) :
    t.mem = s.mem ∧ t.i = s.i := by
  rcases exec_drw_cases run with rfl | rfl
  · exact ⟨rfl, rfl⟩
  · exact ⟨rfl, rfl⟩

/-- No DRW changes a pixel off its sprite. -/
theorem exec_drw_keeps_pixel (run : exec (.drw x y n) s = .next t)
    (off : ¬ Covered s x y n px py) : t.fb.pixel px py = s.fb.pixel px py := by
  rcases exec_drw_cases run with rfl | rfl
  · exact pixel_drawPoints_of_not_mem _ sprite_bound _ (mt mem_sprite.1 off)
  · rfl

section InRange

variable (run : exec (.drw x y n) s = .next t) (rows : n ≤ 15)
  (range : n = 0 ∨ s.i.toNat + n ≤ 4096)
include run rows range

/-- Each pixel of the sprite is drawn once, so that it ends inverted (R214 a). -/
theorem exec_drw_inverts_pixel (covered : Covered s x y n px py) :
    t.fb.pixel px py = !s.fb.pixel px py := by
  obtain rfl := Host.Outcome.next.inj ((exec_drw_of_range range).symm.trans run)
  calc (drawPoints (s.sprite x y n) (s.fb, false)).1.pixel px py
      = (s.fb.pixel px py ^^ decide ((px, py) ∈ s.sprite x y n)) :=
        pixel_drawPoints _ (sprite_nodup rows) sprite_bound _ px py
    _ = !s.fb.pixel px py := by rw [decide_eq_true (mem_sprite.2 covered), Bool.xor_true]

/-- VF is the collision with the display before the draw (R214 b). -/
theorem exec_drw_flag : ∃ c, t.reg 15 = flagByte c ∧
    (c = true ↔ ∃ px py, Covered s x y n px py ∧ s.fb.pixel px py = true) := by
  obtain rfl := Host.Outcome.next.inj ((exec_drw_of_range range).symm.trans run)
  refine ⟨_, reg_setReg_self _ 15 _, ?_⟩
  rw [collision_drawPoints _ (sprite_nodup rows) sprite_bound]
  simp only [Bool.false_or, List.any_eq_true, Prod.exists, mem_sprite]

theorem exec_drw_flag_eq_one_iff :
    t.reg 15 = 1 ↔ ∃ px py, Covered s x y n px py ∧ s.fb.pixel px py = true := by
  obtain ⟨c, stored, collision⟩ := exec_drw_flag run rows range
  rw [stored, ← collision]
  cases c <;> decide

end InRange

/-- Settles O40: a covered pixel is inverted, the others are off the sprite, and VF is the flag of
the collision. -/
theorem drawXorsTheWrappedSprite : Obligations.DrawXorsTheWrappedSprite := by
  intro s x y n rows range
  have range : n = 0 ∨ s.i.toNat + n ≤ 4096 := by omega
  have run := exec_drw_of_range (x := x) (y := y) range
  have flag := exec_drw_flag_eq_one_iff run rows range
  refine ⟨decode_encode (i := .drw x y n) (decide_eq_true rows), _, run, fun px py =>
    ⟨exec_drw_inverts_pixel run rows range, exec_drw_keeps_pixel run⟩, flag.2, fun allOff => ?_,
    fun r other => reg_setReg_of_ne other, fun _ => rfl, rfl⟩
  have noCollision : ¬ ∃ px py, Covered s x y n px py ∧ s.fb.pixel px py = true :=
    fun ⟨px, py, covered, on⟩ => Bool.false_ne_true ((allOff px py covered).symm.trans on)
  rw [reg_setReg_self] at flag ⊢
  exact (flagByte_eq_zero_or_one _).resolve_right (mt flag.1 noCollision)

/-- Settles O41: a pixel that differs is under a 1 bit of the sprite, in that bit's column and
row. -/
theorem drawChangesOnlyItsRowsAndColumns : Obligations.DrawChangesOnlyItsRowsAndColumns := by
  intro s t x y n run px py changed
  obtain ⟨r, c, row, column, -, hpx, hpy⟩ : Covered s x y n px py :=
    by_contra fun off => changed (exec_drw_keeps_pixel run off)
  exact ⟨⟨c, column, hpx⟩, ⟨r, row, hpy⟩⟩

/-! ### Drawing twice -/

section Redraw

/-! A draw from `s` to `t`, and one from `r` to `u` that finds the display of `t` and has the same
sprite. -/

variable {r u : State} (run : exec (.drw x y n) s = .next t)
  (again : exec (.drw x y n) r = .next u) (rows : n ≤ 15)
  (range : n = 0 ∨ s.i.toNat + n ≤ 4096) (range' : n = 0 ∨ r.i.toNat + n ≤ 4096)
  (fb : r.fb = t.fb) (same : ∀ px py, Covered r x y n px py ↔ Covered s x y n px py)
include run again rows range range' fb same

theorem redraw_restores_pixel (px py : Nat) : u.fb.pixel px py = s.fb.pixel px py := by
  by_cases covered : Covered s x y n px py
  · calc u.fb.pixel px py
        = !r.fb.pixel px py := exec_drw_inverts_pixel again rows range' ((same px py).2 covered)
      _ = !t.fb.pixel px py := by rw [fb]
      _ = !!s.fb.pixel px py := by rw [exec_drw_inverts_pixel run rows range covered]
      _ = s.fb.pixel px py := Bool.not_not _
  · calc u.fb.pixel px py
        = r.fb.pixel px py := exec_drw_keeps_pixel again (mt (same px py).1 covered)
      _ = t.fb.pixel px py := by rw [fb]
      _ = s.fb.pixel px py := exec_drw_keeps_pixel run covered

/-- The second draw collides where the first turned a pixel on. -/
theorem redraw_flag_eq_one_iff :
    u.reg 15 = 1 ↔ ∃ px py, Covered s x y n px py ∧ s.fb.pixel px py = false := by
  rw [exec_drw_flag_eq_one_iff again rows range']
  refine exists₂_congr fun px py => ?_
  rw [same, fb]
  refine and_congr_right fun covered => ?_
  rw [exec_drw_inverts_pixel run rows range covered, Bool.not_eq_true']

end Redraw

/-- Settles O42: a draw keeps memory and I, so the second one has the sprite of the first. -/
theorem drawingTwiceRestoresTheDisplay : Obligations.DrawingTwiceRestoresTheDisplay := by
  intro s t x y n pc rows range run hx hy
  have range : n = 0 ∨ s.i.toNat + n ≤ 4096 := by omega
  obtain ⟨mem, i⟩ := exec_drw_keeps_mem_i run
  have range' : n = 0 ∨ t.i.toNat + n ≤ 4096 := i ▸ range
  have same (px py : Nat) : Covered { t with pc := pc } x y n px py ↔ Covered s x y n px py :=
    covered_congr mem i hx hy
  have again := exec_drw_of_range (s := { t with pc := pc }) (x := x) (y := y) range'
  have restored := redraw_restores_pixel run again rows range range' rfl same
  exact ⟨_, again, restored, display_ext fun px py _ _ => restored px py,
    exec_drw_flag_eq_one_iff run rows range,
    redraw_flag_eq_one_iff run again rows range range' rfl same⟩

end Sys2Proof.Machine
end

section
/-! The keypad family: SKP and SKNP test the key that the low nibble of a register names, and
LD Vx, K polls once before it waits (47_keypad.md R230 to R234). -/

namespace Sys2Proof.Machine

open Sys2Proof.Claims

variable {s : State} {i : Instr} {x k : Reg}

/-! ### The key skips -/

/-- The words of family E as its rules spell them, with the low byte in the constant. -/
theorem decode_keyWord (low : Nat) (wf : i.WellFormed) (enc : encode i = encRegSub 0xE x low) :
    decode (BitVec.ofNat 16 (0xE000 + low + x.val * 256)) = .ok i := by
  have sum : 0xE000 + low + x.val * 256 = 0xE * 4096 + x.val * 256 + low := by omega
  rw [sum]
  exact (congrArg decode enc.symm).trans (decode_encode wf)

/-- The key a register names is the one numbered by its low nibble (R233, D17). -/
theorem keyDown_keyNumber {b : Byte} (low : k.val = b.toNat % 16) :
    s.keyDown (keyNumber b) = s.key[k.val] := by
  have named : keyNumber b = k := Fin.ext (by rw [low, keyNumber, Fin.val_ofNat, Nat.mod_mod])
  rw [named, State.keyDown]

theorem exec_skp (low : k.val = (s.reg x).toNat % 16) :
    exec (.skp x) s = .next (s.skipIf (decide (s.key[k.val] = true))) := by
  rw [Bool.decide_eq_true, ← keyDown_keyNumber low]
  rfl

theorem exec_sknp (low : k.val = (s.reg x).toNat % 16) :
    exec (.sknp x) s = .next (s.skipIf (decide (s.key[k.val] = false))) := by
  rw [Bool.decide_eq_false, ← keyDown_keyNumber low]
  rfl

/-- Settles O43: both are a skip on the key of the low nibble, and a skip writes only PC. -/
theorem keySkipsTestTheLowNibbleKey : Obligations.KeySkipsTestTheLowNibbleKey :=
  fun _ _ _ low => ⟨decode_keyWord 0x9E rfl rfl, decode_keyWord 0xA1 rfl rfl,
    completes_of_skip (exec_skp low), completes_of_skip (exec_sknp low)⟩

/-! ### The key load -/

/-- Settles O44: the lowest pressed key is the one key_select finds, and it finds none exactly when
every key is released. -/
theorem keyLoadStoresOrWaits : Obligations.KeyLoadStoresOrWaits := by
  intro s x
  refine ⟨decode_miscWord 0x0A rfl rfl, fun k pressed lowest => ?_, fun released => ?_⟩
  · refine ⟨_, execLdVxK_of_some (keySelect_eq_some.2 ⟨pressed, lowest⟩), ?_,
      onlyRegs_setReg s x _⟩
    rw [reg_setReg_self, keyByte_toNat]
  · exact execLdVxK_of_none (keySelect_eq_none.2 released)

end Sys2Proof.Machine
end

section
/-! The timer and event family: the timer instructions, TICK and SET_KEY, and the two outputs
(48_timers.md R240 to R242, 60_exceptions.md R261 to R264). -/

namespace Sys2Proof.Machine

open Sys2Proof.Claims

variable {s : State} {rest : List HostEvent}

/-! ### The outputs -/

/-- Settles O48: the output is the decision of ST > 0. -/
theorem soundIsActiveWhileStIsPositive : Obligations.SoundIsActiveWhileStIsPositive :=
  fun _ => decide_eq_true_iff

/-- A byte is positive exactly when it is not zero, which is how R242 words R264. -/
theorem soundActive_eq_decide_ne_zero (s : State) : soundActive s = decide (s.st ≠ 0) :=
  decide_eq_decide.2 (Nat.pos_iff_ne_zero.trans (not_congr (BitVec.toNat_inj (y := 0))))

/-- Settles O49: the snapshot is built row by row and pixel by pixel over the ranges of the
coordinates. -/
theorem snapshotIsTheGridOfPixels : Obligations.SnapshotIsTheGridOfPixels := by
  intro s
  refine ⟨?_, fun row member => ?_, fun px py inRow inGrid => ?_⟩
  · rw [displaySnapshot, List.length_map, List.length_range]
  · obtain ⟨y, -, rfl⟩ := List.mem_map.1 member
    rw [List.length_map, List.length_range]
  · simp [displaySnapshot, inRow, inGrid]

/-! ### The timer instructions -/

/-- Settles O45: each is one write of its destination, and the sound follows the ST written. -/
theorem timerInstructionsCopyBytes : Obligations.TimerInstructionsCopyBytes := by
  intro s x
  refine ⟨⟨decode_miscWord 0x07 rfl rfl, decode_miscWord 0x15 rfl rfl,
    decode_miscWord 0x18 rfl rfl⟩, ?_, ?_, ?_⟩
  · exact ⟨_, rfl, reg_setReg_self s x _, onlyRegs_setReg s x _⟩
  · exact ⟨_, rfl, setDt_dt s _, rfl, fun _ => rfl, fun _ => rfl⟩
  · exact ⟨_, rfl, setSt_st s _, soundActive_eq_decide_ne_zero _, rfl, fun _ => rfl,
      fun _ => rfl⟩

/-! ### TICK -/

/-- A served TICK uses up its event, returns nothing and ticks both timers, whatever MODE and FAULT
hold (R261, D27). -/
theorem step_of_tick (pending : s.pending = .tick :: rest) :
    step s = .next (tick { s with pending := rest, reply := none }) :=
  step_of_event pending

/-- A tick and `n` more lower a timer by `n + 1`, not below 0. -/
theorem timerTick_toNat_sub (b : Byte) (n : Nat) :
    (timerTick b).toNat - n = b.toNat - (n + 1) := by
  rw [timerTick_toNat, Nat.sub_sub, Nat.add_comm]

/-- Settles O46, by induction on the number of TICKs: the first lowers each timer by one, and the
others run from the state it leaves. -/
theorem ticksLowerBothTimersToZero : Obligations.TicksLowerBothTimersToZero := by
  intro n
  induction n with
  | zero =>
    intro s pending
    exact ⟨_, run_of_step core (step_of_tick pending), timerTick_toNat s.dt, timerTick_toNat s.st,
      rfl⟩
  | succ n ih =>
    intro s pending
    obtain ⟨t, run, dt, st, frame⟩ :=
      ih (tick { s with pending := List.replicate (n + 1) .tick, reply := none }) rfl
    exact ⟨t, (run_of_step core (step_of_tick pending)).trans run,
      dt.trans (timerTick_toNat_sub s.dt (n + 1)), st.trans (timerTick_toNat_sub s.st (n + 1)),
      frame⟩

/-! ### SET_KEY -/

/-- Settles O47: the event replaces one entry of KEY. -/
theorem setKeyWritesOneKey : Obligations.SetKeyWritesOneKey := by
  intro s k b rest pending
  refine ⟨_, step_of_event pending, Vector.getElem_set_self _, fun j other => ?_, rfl⟩
  exact Vector.getElem_set_ne k.isLt j.isLt (Fin.val_ne_of_ne other.symm)

end Sys2Proof.Machine
end

section
/-! The reset family: LOAD and RESET initialise the machine, a LOAD that is too large does not, and
CYCLEs at a self-jump change nothing (70_reset_and_hazards.md R301 to R309). -/

namespace Sys2Proof.Machine

open Sys2Proof.Claims

variable {s : State} {rom : List Byte} {rest : List HostEvent}

/-! ### Memory after a LOAD -/

/-- The bytes of a ROM stand from PROG_BASE on (R303). -/
theorem read_image_rom {j : Nat} (fits : rom.length ≤ 3584) (inside : j < rom.length) :
    (Memory.image 0x200 rom).read (0x200 + j) = rom.getD j 0 := by
  rw [read_image _ _ _ (by omega), if_pos (by omega), Nat.add_sub_cancel_left]

/-- Outside the ROM, memory is as after power-on (R303). -/
theorem read_image_outside {a : Nat} (fits : rom.length ≤ 3584)
    (outside : a < 0x200 ∨ 0x200 + rom.length ≤ a) :
    (Memory.image 0x200 rom).read a = Memory.background a := by
  rw [read_image _ _ _ (by omega), if_neg (by omega)]

/-! ### LOAD and RESET -/

/-- The state a successful LOAD leaves (R301). `step_of_load` ties it to `step`. -/
def State.loaded (s : State) (rom : List Byte) : State :=
  { s.init rom with romimg := rom, reply := some .ok }

/-- A LOAD that fits uses up its event and initialises the machine, whatever it held. -/
theorem step_of_load (pending : s.pending = .load rom :: rest) (fits : rom.length ≤ 3584) :
    step s = .next (State.loaded { s with pending := rest } rom) :=
  (step_of_event pending).trans (congrArg _ (load_of_le fits))

/-- Settles O51: INIT writes each element's value, and memory reads as the image of the ROM. -/
theorem loadInitialisesTheMachine : Obligations.LoadInitialisesTheMachine := by
  intro s rom rest pending fits
  refine ⟨_, step_of_load pending fits, rfl, fun j => read_image_rom fits, fun a inFont => ?_,
    fun a aboveFont outside => ?_, fun r => ?_, rfl, rfl, rfl, fun k => ?_, rfl, rfl, pixel_clear,
    rfl, rfl, rfl, rfl, rfl, rfl, rfl⟩
  · exact (read_image_outside fits (.inl (by omega))).trans (background_of_lt inFont)
  · exact (read_image_outside fits outside).trans (background_of_ge aboveFont)
  · exact Vector.getElem_replicate _
  · exact Vector.getElem_replicate _

/-- Settles O52: the size is checked before anything is written. -/
theorem tooLargeRomChangesNothing : Obligations.TooLargeRomChangesNothing :=
  fun _ _ _ pending large => (step_of_event pending).trans (congrArg _ (load_of_gt large))

/-- Settles O53: both events are INIT of the retained ROM, and the LOAD retains it again. -/
theorem resetIsAFreshLoadOfTheSameRom : Obligations.ResetIsAFreshLoadOfTheSameRom :=
  fun s rest pending fits => ⟨State.loaded { s with pending := rest } s.romimg,
    step_of_event pending, step_of_load rfl fits, rfl⟩

/-! ### The self-jump -/

/-- A machine whose step gives its state back stays in it. -/
theorem run_of_fixed (fixed : step s = .next s) (n : Nat) : core.run n s = .next s := by
  induction n with
  | zero => rfl
  | succ n ih => exact (run_of_step core fixed).trans ih

/-- The word a fetch gives decodes to `d` exactly when PC is in memory and the word there does. -/
theorem fetch_map_decode_eq_some {d : Except DecodeError Instr} :
    (s.fetch.map fun p => decode p.1) = some d ↔
      s.pc.toNat ≤ 0xFFE ∧ decode (wordAt s s.pc.toNat) = d := by
  simp only [Option.map_eq_some_iff, Prod.exists, fetch_eq_some]
  constructor
  · rintro ⟨_, _, ⟨inside, rfl, rfl⟩, dec⟩
    exact ⟨inside, dec⟩
  · rintro ⟨inside, dec⟩
    exact ⟨_, _, ⟨inside, rfl, rfl⟩, dec⟩

/-- The reply does not enter the end-of-run condition. -/
theorem State.atSelfJump.answer (stuck : s.atSelfJump) (r : Reply) : (s.answer r).atSelfJump := by
  obtain ⟨sound, running, nnn, target, fetched⟩ := stuck
  refine ⟨sound, running, nnn, target, ?_⟩
  rw [fetch_map_decode_eq_some] at fetched ⊢
  exact fetched

/-- The jump writes to PC the address it was fetched from, so a CYCLE only returns Ok (R309). -/
theorem step_of_selfJump (idle : s.pending = []) (stuck : s.atSelfJump) :
    step s = .next (s.answer .ok) := by
  obtain ⟨sound, running, nnn, target, fetched⟩ := stuck
  obtain ⟨inside, dec⟩ := fetch_map_decode_eq_some.1 fetched
  have back : zext12 nnn = s.pc := BitVec.eq_of_toNat_eq ((zext12_toNat nnn).trans target.symm)
  calc step s
      = .next (s.fetched.setPc (zext12 nnn)) :=
        step_eq_exec_fetched ⟨idle, sound, running⟩ inside dec
    _ = .next (s.answer .ok) := by
        rw [back]
        rfl

/-- Settles O56: the first CYCLE notes Ok, and the state it leaves is a fixed point of the step. -/
theorem selfJumpRepeatsForEver : Obligations.SelfJumpRepeatsForEver := by
  intro n s idle stuck
  have fixed : step (s.answer .ok) = .next (s.answer .ok) :=
    step_of_selfJump idle (stuck.answer .ok)
  exact (run_of_step core (step_of_selfJump idle stuck)).trans (run_of_fixed fixed n)

end Sys2Proof.Machine
end
